-- ==== Sys2Proof/Word.lean ====
section
/-! DEFINITION. The value types of ics2019-EXU: bytes, 32-bit words, and the three access widths.
00_scope.md R8 and R9; 20_memory.md R53; 92_eei_decisions.md D24 (a width type of three values, so that
a primitive cannot be called with another width). -/

namespace Sys2Proof

/-- One byte of guest memory. -/
abbrev Byte := BitVec 8

/-- `Word32` of 00_scope.md R9: a register, an address, an operand value. -/
abbrev Word := BitVec 32

/-- The access widths, 1, 2 and 4 bytes and no other (20_memory.md R53). -/
inductive Width where
  | byte
  | half
  | word
deriving DecidableEq, Repr

/-- The byte count of a width (30_encoding.md R73). -/
def Width.bytes : Width → Nat
  | .byte => 1
  | .half => 2
  | .word => 4

end Sys2Proof
end

