-- ==== Sys2Proof/Machine/Flags.lean ====
section
/-! DEFINITION. The block's arithmetic.  It has no flags: "no helper sets or reads a carry, overflow, zero or sign
flag, and no predicate register exists" (10_state.md R31), so this file holds the one adder and nothing beside it. -/

namespace Sys2Proof.Machine

/-- The primitive `add32(dst, a, b)`: `(a + b) mod 2^32`, the value given to `dst`; "no carry, no overflow, no flag"
(40_cycle_and_primitives.md R105). -/
def add32 (a b : Word) : Word := a + b

end Sys2Proof.Machine
end

