-- ==== Sys2Proof/Machine/Operands.lean ====
section
/-! DEFINITION. Extension, truncation and the immediates (00_scope.md R9, 20_memory.md R55, 30_encoding.md R89,
40_cycle_and_primitives.md R103). -/

namespace Sys2Proof.Machine

/-- `sext_{8*width}`: the low bits of `v`, the higher ones copies of their top bit (00_scope.md R9). -/
def sext : Width → Word → Word
  | .byte, v => (v.setWidth 8).signExtend 32
  | .half, v => (v.setWidth 16).signExtend 32
  | .word, v => v

/-- The primitive `sign_extend(dst, src, width)` (40_cycle_and_primitives.md R103): the value given to `dst`. -/
def signExtendTo (src : Word) (w : Width) : Word := sext w src

/-- `s0 & 0xFFFFFFFE`: bit 0 cleared (40 R108, 41_jump_and_link.md R121). -/
def clearBit0 (v : Word) : Word := v &&& 0xFFFFFFFE#32

/-- The bytes a store of width `w` writes, the lowest address first: `src[8k+7:8k]` for `k = 0 .. w-1`
(20_memory.md R52, 40 R102; little-endian, log 9). -/
def storeBytes : Width → Word → List Byte
  | .byte, v => [v.extractLsb' 0 8]
  | .half, v => [v.extractLsb' 0 8, v.extractLsb' 8 8]
  | .word, v => [v.extractLsb' 0 8, v.extractLsb' 8 8, v.extractLsb' 16 8, v.extractLsb' 24 8]

/-- `immI` and `immS` of a guest word, from their 12 bits (30_encoding.md R89). -/
def imm12 (off : BitVec 12) : Word := off.signExtend 32

/-- `immJ` of a guest word, from its 21 bits (30_encoding.md R89). -/
def immJ (off : BitVec 21) : Word := off.signExtend 32

end Sys2Proof.Machine
end

