-- ==== Sys2Proof/Config.lean ====
section
/-! DEFINITION. What the spec leaves OPEN (00_scope.md R8, 92_eei_decisions.md section 2).

* `RESET_PC`, `RESET_GPR` and `mem_admits` are plain data, `Params`: the state carries a `Params` that no
  step changes, so a statement about every state is a statement about every value of them (log 4, 6).
* `REG_NAME` and `PC_NAME` are plain data, `NameTable`, an argument of the port functions (log 16).
* `JALR_SKIP_N` and `JALR_SKIP_REASON` are free values, constants without a body (log 8); so is the value of an
  evaluator's literal that no 32-bit word holds (log 20). -/

namespace Sys2Proof

/-- The `kind` argument of `mem_admits` (92_eei_decisions.md D14). -/
inductive AccessKind where
  | read
  | write
deriving DecidableEq, Repr

/-- A set of accesses the guest memory collaborator does not serve: those of one width and one kind whose
first byte lies in `first .. last`.  A list of these describes every `mem_admits` predicate there is, since a
range may hold one address (20_memory.md R66; DESIGN CHOICE, log 6). -/
structure RefusedRange where
  first : Word
  last : Word
  width : Width
  kind : AccessKind
deriving DecidableEq, Repr

/-- The OPEN parameters a step depends on: `RESET_PC` (10_state.md R37), `RESET_GPR` (R36; entry `i - 1` is
`RESET_GPR(i)`), and `mem_admits` as the list of what is refused (20_memory.md R66). -/
structure Params where
  resetPc : Word
  resetGpr : Vector Word 31
  refused : List RefusedRange
deriving DecidableEq, Repr

/-- The parameters that `State.reset` carries: the start state of 95_test_vectors.md section 2 (`pc` 0x80000000,
all registers 0), and a memory that serves every access (DESIGN CHOICE, log 4 and log 6). -/
def Params.initial : Params where
  resetPc := 0x80000000#32
  resetGpr := Vector.replicate 31 0#32
  refused := []

/-- `JALR_SKIP_N`, the count `jalr` hands to the reference-model hook: the source gives no value (41 R121,
92_eei_decisions.md D19).  A free value, log 8. -/
opaque Config.jalrSkipN : Nat

/-- `JALR_SKIP_REASON`, an uninterpreted tag (92_eei_decisions.md D19).  A free value, log 8. -/
opaque Config.jalrSkipReason : Nat

/-- The value of a literal whose number is above 2^32 - 1, in the debug expression evaluator: the spec states none
(60_exceptions.md R179).  A free value, log 20. -/
opaque Config.overlongLiteral : String → Word

/-- `REG_NAME` and `PC_NAME` (44_register_file_ports.md R150). -/
structure NameTable where
  reg : Vector String 32
  pc : String
deriving DecidableEq, Repr

/-- The 33 names are pairwise different (44_register_file_ports.md R150). -/
abbrev NameTable.wf (names : NameTable) : Prop :=
  (names.pc :: names.reg.toList).Nodup

/-- The default table of 44_register_file_ports.md R150, which the spec marks as general knowledge
(PRESUMED, log 16). -/
def NameTable.default : NameTable where
  reg := #v["$0", "ra", "sp", "gp", "tp", "t0", "t1", "t2",
            "s0", "s1", "a0", "a1", "a2", "a3", "a4", "a5",
            "a6", "a7", "s2", "s3", "s4", "s5", "s6", "s7",
            "s8", "s9", "s10", "s11", "t3", "t4", "t5", "t6"]
  pc := "pc"

end Sys2Proof
end

