-- ==== Sys2Proof/Syntax.lean ====
section
/-! DEFINITION. The instructions: one constructor per row of spec/opcode_table.json.
Ten are rows of the record dispatch map (30_encoding.md R76) and carry the fields their helper reads (R74);
the fields it does not read (R77) are no part of the instruction.  Ten are rows of the informative front end
(30_encoding.md R90, log 3). -/

namespace Sys2Proof

/-- A general register index, 0 to 31 (10_state.md R20). -/
abbrev RegIdx := Fin 32

inductive Instr where
  /-- `jal rd, imm` (41_jump_and_link.md R120). -/
  | jal (rd : RegIdx) (imm : Word)
  /-- `jalr rd, base, off` (41_jump_and_link.md R121). -/
  | jalr (rd : RegIdx) (base off : Word)
  /-- `ld.4 rd, [ea]` (42_loads.md R130). -/
  | ld4 (rd : RegIdx) (ea : Word)
  /-- `ld.2 rd, [ea]` (42_loads.md R131). -/
  | ld2 (rd : RegIdx) (ea : Word)
  /-- `ld.1 rd, [ea]` (42_loads.md R132). -/
  | ld1 (rd : RegIdx) (ea : Word)
  /-- `lh rd, [ea]` (42_loads.md R133). -/
  | lh (rd : RegIdx) (ea : Word)
  /-- `lb rd, [ea]` (42_loads.md R134). -/
  | lb (rd : RegIdx) (ea : Word)
  /-- `st.4 [ea], data` (43_stores.md R140). -/
  | st4 (ea data : Word)
  /-- `st.2 [ea], data` (43_stores.md R141). -/
  | st2 (ea data : Word)
  /-- `st.1 [ea], data` (43_stores.md R142). -/
  | st1 (ea data : Word)
  /-- guest `jal rd, off`; `off` is the 21-bit jump offset, bit 0 of it always 0 (30_encoding.md R89, R90). -/
  | rvJal (rd : RegIdx) (off : BitVec 21)
  /-- guest `jalr rd, off(rs1)` (30_encoding.md R90). -/
  | rvJalr (rd rs1 : RegIdx) (off : BitVec 12)
  /-- guest `lb rd, off(rs1)` (30_encoding.md R90). -/
  | rvLb (rd rs1 : RegIdx) (off : BitVec 12)
  /-- guest `lh rd, off(rs1)` (30_encoding.md R90). -/
  | rvLh (rd rs1 : RegIdx) (off : BitVec 12)
  /-- guest `lw rd, off(rs1)` (30_encoding.md R90). -/
  | rvLw (rd rs1 : RegIdx) (off : BitVec 12)
  /-- guest `lbu rd, off(rs1)` (30_encoding.md R90). -/
  | rvLbu (rd rs1 : RegIdx) (off : BitVec 12)
  /-- guest `lhu rd, off(rs1)` (30_encoding.md R90). -/
  | rvLhu (rd rs1 : RegIdx) (off : BitVec 12)
  /-- guest `sb rs2, off(rs1)` (30_encoding.md R90). -/
  | rvSb (rs2 rs1 : RegIdx) (off : BitVec 12)
  /-- guest `sh rs2, off(rs1)` (30_encoding.md R90). -/
  | rvSh (rs2 rs1 : RegIdx) (off : BitVec 12)
  /-- guest `sw rs2, off(rs1)` (30_encoding.md R90). -/
  | rvSw (rs2 rs1 : RegIdx) (off : BitVec 12)
deriving DecidableEq, Repr

/-- The Decoded Instruction record `DI[74:0]` (30_encoding.md R71). -/
abbrev Record := BitVec 75

/-- The words an instruction is encoded in: one 75-bit record, or one 32-bit guest word. -/
inductive Code where
  | record (d : Record)
  | guest (w : BitVec 32)
deriving DecidableEq, Repr

/-- Why bits are no instruction. -/
inductive DecodeError where
  /-- `DI.op` is 0 or 7 (30_encoding.md R78). -/
  | reservedTag
  /-- `DI.op` is `LD` or `ST` and `DI.width` is not 1, 2 or 4 (30_encoding.md R79). -/
  | unsupportedWidth
  /-- a guest word outside the rows of the front end's map (30_encoding.md R91). -/
  | unmappedWord
deriving DecidableEq, Repr

/-- The mnemonic of an instruction, as spec/opcode_table.json spells it. -/
def Instr.mnemonic : Instr → String
  | .jal .. => "jal"
  | .jalr .. => "jalr"
  | .ld4 .. => "ld.4"
  | .ld2 .. => "ld.2"
  | .ld1 .. => "ld.1"
  | .lh .. => "lh"
  | .lb .. => "lb"
  | .st4 .. => "st.4"
  | .st2 .. => "st.2"
  | .st1 .. => "st.1"
  | .rvJal .. => "rv32.jal"
  | .rvJalr .. => "rv32.jalr"
  | .rvLb .. => "rv32.lb"
  | .rvLh .. => "rv32.lh"
  | .rvLw .. => "rv32.lw"
  | .rvLbu .. => "rv32.lbu"
  | .rvLhu .. => "rv32.lhu"
  | .rvSb .. => "rv32.sb"
  | .rvSh .. => "rv32.sh"
  | .rvSw .. => "rv32.sw"

end Sys2Proof
end

