-- ==== Sys2Proof/Machine/State.lean ====
section
/-! DEFINITION. The state of the block (10_state.md), the reasons a step can stop, and the state after reset.
INVENTORY.md lists every field under '## State'. -/

namespace Sys2Proof.Machine

/-- The kinds of the Fatal outcome (60_exceptions.md R161). -/
inductive FatalKind where
  | unsupportedWidth
  | unreachableDecode
deriving DecidableEq, Repr

/-- Why a step has no next state. -/
inductive Fault where
  /-- Raised by `step` and by every cycle when the fatal latch is set: "When `fatal = 1` there is no step"
  (40 R100, 60 R163).  Carries `fatal_kind`.  Safe: the block does stop there. -/
  | fatalLatched (kind : BitVec 2)
  /-- Raised by `load_memory` and `store_memory` when the guest memory collaborator does not admit the access:
  "the step has *no outcome*" (20_memory.md R66).  Safe (log 6). -/
  | accessNotAdmitted (addr : Word) (width : Width) (kind : AccessKind)
  /-- Raised by the front end when its fetch at `pc` is not admitted (20_memory.md R66, 30_encoding.md R87).
  Safe (log 6). -/
  | fetchNotAdmitted (addr : Word)
deriving DecidableEq, Repr

/-- Why there is nothing to run. -/
inductive Refusal where
  /-- Raised by an arm of `exec` whose instruction has no meaning yet.  Safe. -/
  | notModelled (mnemonic : String)
  /-- Raised by `step` when the environment offers no record: "A run ends when the environment stops supplying
  records" (70 R203).  Safe (log 2). -/
  | noRecord
deriving DecidableEq, Repr

/-- What the block's output ports carry in a cycle: a request on the guest memory port (20_memory.md R50) or the
`skip(n, reason)` event (40 R107). -/
inductive PortEvent where
  | memRead (addr : Word) (width : Width)
  | memWrite (addr : Word) (bytes : List Byte)
  | skip (n reason : Nat)
deriving DecidableEq, Repr

/-- Where the next cycle's record comes from: the records the environment offers, the next one first, or the
reference front end (30_encoding.md R86; log 2, log 3). -/
inductive Supply where
  | records (queue : List Record)
  | frontEnd
deriving DecidableEq, Repr

/-- Guest memory: the bytes that differ from what an unlisted address reads as, by rising address. -/
abbrev Memory := List Host.Cell

structure State where
  /-- `x[1] .. x[31]`; entry `i - 1` is `x[i]` (10_state.md R20, R21). -/
  gpr : Vector Word 31
  /-- The program counter (10_state.md R25). -/
  pc : Word
  /-- The Pending Control-Transfer Target: `none` is `jmp_valid = 0` (10_state.md R28, log 7). -/
  pending : Option Word
  /-- The fatal latch (10_state.md R30). -/
  fatal : Bool
  /-- `fatal_kind`: 0 none, 1 `UnsupportedWidth`, 2 `UnreachableDecode` (60_exceptions.md R161). -/
  fatalKind : BitVec 2
  /-- Guest memory (20_memory.md R50, R51). -/
  mem : Memory
  /-- What the output ports carried in the last completed cycle, in order (00_scope.md R7, log 8). -/
  events : List PortEvent
  /-- The record input (00_scope.md R6, log 2). -/
  supply : Supply
  /-- The reset input, sampled between cycles (70 R190, log 2). -/
  resetReq : Bool
  /-- The OPEN parameters (00_scope.md R8, log 4, log 6); no step changes them. -/
  params : Params
deriving DecidableEq, Repr

/-- The machine right after reset (10_state.md R36 to R39), with the parameters of `Params.initial`: `pc` and the
general registers hold `RESET_PC` and `RESET_GPR`, whose values there are the model's choice (log 4). -/
def State.reset : State where
  gpr := Params.initial.resetGpr
  pc := Params.initial.resetPc
  pending := none
  fatal := false
  fatalKind := 0#2
  mem := []
  events := []
  supply := .records []
  resetReq := false
  params := Params.initial

end Sys2Proof.Machine
end

