-- ==== Sys2Proof/Machine/Ops.lean ====
section
/-! DEFINITION. The operations every helper is made of: guest memory (20_memory.md), the register file, the
primitives (40_cycle_and_primitives.md R101 to R107), the cycle (R100), the Fatal outcome (60_exceptions.md R162)
and reset (70_reset_and_hazards.md R190). -/

namespace Sys2Proof.Machine

/-! ### Guest memory -/

/-- What a byte that nothing has written reads as (DESIGN CHOICE, log 5). -/
def unlistedByte : Byte := 0#8

/-- Keys rise strictly from `lo` on, stay inside the address space, and no entry is redundant. -/
def Memory.wfFrom : Nat → Memory → Bool
  | _, [] => true
  | lo, (a, v) :: m => decide (lo ≤ a) && decide (a < 2 ^ 32) && decide (v ≠ unlistedByte) && wfFrom (a + 1) m

/-- The canonical form of guest memory. -/
def Memory.wf (m : Memory) : Bool := Memory.wfFrom 0 m

/-- The byte at an address. -/
def Memory.byteAt : Memory → Nat → Byte
  | [], _ => unlistedByte
  | (b, v) :: m, a => if a = b then v else byteAt m a

/-- Write one byte, keeping the canonical form. -/
def Memory.setByte : Memory → Nat → Byte → Memory
  | [], a, v => if v = unlistedByte then [] else [(a, v)]
  | (b, u) :: m, a, v =>
    if a < b then (if v = unlistedByte then (b, u) :: m else (a, v) :: (b, u) :: m)
    else if a = b then (if v = unlistedByte then m else (a, v) :: m)
    else (b, u) :: setByte m a v

/-- Write bytes from `a` on; byte `k` goes to `a + k` modulo 2^32 (20_memory.md R51). -/
def Memory.setBytes : Memory → Word → List Byte → Memory
  | m, _, [] => m
  | m, a, v :: vs => setBytes (m.setByte a.toNat v) (a + 1#32) vs

/-- `zext_{8*width}(MemRead(addr, width))`: the bytes at `addr + k` modulo 2^32, the one at the lowest address in the
low bits (20_memory.md R50 to R52; little-endian, log 9; wrap-around, log 11). -/
def memRead (m : Memory) (addr : Word) : Width → Word
  | .byte => (m.byteAt addr.toNat).setWidth 32
  | .half => (m.byteAt (addr + 1#32).toNat ++ m.byteAt addr.toNat).setWidth 32
  | .word => m.byteAt (addr + 3#32).toNat ++ m.byteAt (addr + 2#32).toNat
      ++ m.byteAt (addr + 1#32).toNat ++ m.byteAt addr.toNat

/-- `MemWrite(addr, width, v)` (20_memory.md R50, R52). -/
def memWrite (m : Memory) (addr : Word) (w : Width) (v : Word) : Memory := m.setBytes addr (storeBytes w v)

/-- The addresses of the bytes of an access: `addr + k` modulo 2^32, `k = 0 .. width-1` (20_memory.md R51). -/
def accessAddrs (addr : Word) (w : Width) : List Word :=
  (List.range w.bytes).map fun k => addr + BitVec.ofNat 32 k

/-- The range refuses the access. -/
def RefusedRange.covers (r : RefusedRange) (addr : Word) (w : Width) (k : AccessKind) : Bool :=
  decide (r.first.toNat ≤ addr.toNat) && decide (addr.toNat ≤ r.last.toNat) && decide (r.width = w) &&
    decide (r.kind = k)

/-- `mem_admits(addr, n, kind)` (20_memory.md R66, log 6). -/
def memAdmits (s : State) (addr : Word) (w : Width) (k : AccessKind) : Bool :=
  !s.params.refused.any fun r => RefusedRange.covers r addr w k

/-! ### The register file -/

/-- The index read port `read_reg(i)`: `x[i]`, and 0 for index 0 (44_register_file_ports.md R156, 10_state.md R21). -/
def readReg (s : State) (i : RegIdx) : Word :=
  if h : i.val = 0 then 0#32 else s.gpr[i.val - 1]'(by omega)

/-- The primitive `set_register(i, v)`; a write to index 0 is discarded (40 R104, 10_state.md R21). -/
def setRegister (i : RegIdx) (v : Word) (s : State) : State :=
  if h : i.val = 0 then s else { s with gpr := s.gpr.set (i.val - 1) v (by omega) }

/-! ### The other primitives -/

/-- An output of the block in this cycle (00_scope.md R7). -/
def emit (e : PortEvent) (s : State) : State := { s with events := s.events ++ [e] }

/-- The primitive `load_memory(dst, addr, width)`: one read request, and the value given to `dst` (40 R101). -/
def loadMemory (addr : Word) (w : Width) (s : State) : Except Fault (Word × State) :=
  if memAdmits s addr w .read then .ok (memRead s.mem addr w, emit (.memRead addr w) s)
  else .error (.accessNotAdmitted addr w .read)

/-- The primitive `store_memory(addr, src, width)`: one write request (40 R102). -/
def storeMemory (addr src : Word) (w : Width) (s : State) : Except Fault State :=
  if memAdmits s addr w .write then
    .ok (emit (.memWrite addr (storeBytes w src)) { s with mem := memWrite s.mem addr w src })
  else .error (.accessNotAdmitted addr w .write)

/-- The primitive `commit_jump(t)`: records the pending target and leaves `pc` alone (40 R106). -/
def commitJump (t : Word) (s : State) : State := { s with pending := some t }

/-- The primitive `difftest_skip(n)`: an output event only (40 R107). -/
def difftestSkip (n : Nat) (s : State) : State := emit (.skip n Config.jalrSkipReason) s

/-! ### The execution cycle (40_cycle_and_primitives.md R100) -/

/-- Step 1: no pending target, and no output yet. -/
def beginCycle (s : State) : State := { s with pending := none, events := [] }

/-- Steps 3 and 4: only now is the program counter touched (10_state.md R26). -/
def endCycle (s : State) : State :=
  match s.pending with
  | some t => { s with pc := t, pending := none }
  | none => { s with pc := add32 s.pc 4#32, pending := none }

/-- One cycle around a helper.  There is none while the latch is set (40 R100), and nothing of it is kept when a
memory access is not admitted (20_memory.md R66). -/
def runCycle (helper : State → Except Fault State) (s : State) : Host.Outcome State Fault Refusal :=
  if s.fatal then .fault (.fatalLatched s.fatalKind)
  else
    match helper (beginCycle s) with
    | .ok t => .next (endCycle t)
    | .error f => .fault f

/-! ### The Fatal outcome (60_exceptions.md R161, R162) and the way back from it -/

/-- The code of a kind in `fatal_kind` (60_exceptions.md R161). -/
def FatalKind.code : FatalKind → BitVec 2
  | .unsupportedWidth => 1#2
  | .unreachableDecode => 2#2

/-- The kind of a record or guest word that is no instruction (30_encoding.md R78, R79, R91). -/
def fatalKindOf : DecodeError → FatalKind
  | .unsupportedWidth => .unsupportedWidth
  | .reservedTag => .unreachableDecode
  | .unmappedWord => .unreachableDecode

/-- Fatal entry: the cycle commits nothing, emits nothing and leaves no pending target; the latch is set
(60_exceptions.md R162).  The offending record stays with the environment (92 D31; log 1). -/
def takeFatal (k : FatalKind) (s : State) : State :=
  { s with fatal := true, fatalKind := k.code, pending := none, events := [] }

/-- Reset, the only way out of the fatal state; guest memory is not touched (70 R190, 10_state.md R36 to R39).
The request is answered. -/
def resetBlock (s : State) : State :=
  { s with
    gpr := s.params.resetGpr, pc := s.params.resetPc, pending := none, fatal := false, fatalKind := 0#2,
    events := [], resetReq := false }

end Sys2Proof.Machine
end

