-- ==== Sys2Proof/Machine/JumpLink.lean ====
section
/-! DEFINITION. The jump-and-link family (41_jump_and_link.md). -/

namespace Sys2Proof.Machine

/-- `helper_jal` (41_jump_and_link.md R120). -/
def helperJal (rd : RegIdx) (imm : Word) (s : State) : Except Fault State :=
  let s0 := add32 s.pc 4#32
  let s := setRegister rd s0 s
  let s1 := add32 s.pc imm
  .ok (commitJump s1 s)

/-- `helper_jalr` (41_jump_and_link.md R121). -/
def helperJalr (rd : RegIdx) (base off : Word) (s : State) : Except Fault State :=
  let s0 := clearBit0 (add32 base off)
  let s1 := add32 s.pc 4#32
  let s := setRegister rd s1 s
  let s := commitJump s0 s
  .ok (difftestSkip Config.jalrSkipN s)

/-- `jal rd, imm` (41_jump_and_link.md R120). -/
def execJal (rd : RegIdx) (imm : Word) (s : State) : Host.Outcome State Fault Refusal :=
  runCycle (helperJal rd imm) s

/-- `jalr rd, base, off` (41_jump_and_link.md R121). -/
def execJalr (rd : RegIdx) (base off : Word) (s : State) : Host.Outcome State Fault Refusal :=
  runCycle (helperJalr rd base off) s

end Sys2Proof.Machine
end

