-- ==== Sys2Proof/Machine/Loads.lean ====
section
/-! DEFINITION. The load family (42_loads.md): the generic zero-extending loader, and the two sign-extending loads. -/

namespace Sys2Proof.Machine

/-- `helper_ld` at one of its three widths (42_loads.md R130 to R132). -/
def helperLd (w : Width) (rd : RegIdx) (ea : Word) (s : State) : Except Fault State :=
  match loadMemory ea w s with
  | .error f => .error f
  | .ok (s0, s) => .ok (setRegister rd s0 s)

/-- `helper_lh` (42_loads.md R133) and `helper_lb` (R134): load raw bytes, then sign-extend. -/
def helperLdSigned (w : Width) (rd : RegIdx) (ea : Word) (s : State) : Except Fault State :=
  match loadMemory ea w s with
  | .error f => .error f
  | .ok (s0, s) => .ok (setRegister rd (signExtendTo s0 w) s)

/-- `ld.4 rd, [ea]` (42_loads.md R130). -/
def execLd4 (rd : RegIdx) (ea : Word) (s : State) : Host.Outcome State Fault Refusal :=
  runCycle (helperLd .word rd ea) s

/-- `ld.2 rd, [ea]` (42_loads.md R131). -/
def execLd2 (rd : RegIdx) (ea : Word) (s : State) : Host.Outcome State Fault Refusal :=
  runCycle (helperLd .half rd ea) s

/-- `ld.1 rd, [ea]` (42_loads.md R132). -/
def execLd1 (rd : RegIdx) (ea : Word) (s : State) : Host.Outcome State Fault Refusal :=
  runCycle (helperLd .byte rd ea) s

/-- `lh rd, [ea]` (42_loads.md R133). -/
def execLh (rd : RegIdx) (ea : Word) (s : State) : Host.Outcome State Fault Refusal :=
  runCycle (helperLdSigned .half rd ea) s

/-- `lb rd, [ea]` (42_loads.md R134). -/
def execLb (rd : RegIdx) (ea : Word) (s : State) : Host.Outcome State Fault Refusal :=
  runCycle (helperLdSigned .byte rd ea) s

end Sys2Proof.Machine
end

