-- ==== Sys2Proof/Machine/Stores.lean ====
section
/-! DEFINITION. The store family (43_stores.md). -/

namespace Sys2Proof.Machine

/-- `helper_st` at one of its three widths (43_stores.md R140 to R142). -/
def helperSt (w : Width) (ea data : Word) (s : State) : Except Fault State :=
  storeMemory ea data w s

/-- `st.4 [ea], data` (43_stores.md R140). -/
def execSt4 (ea data : Word) (s : State) : Host.Outcome State Fault Refusal :=
  runCycle (helperSt .word ea data) s

/-- `st.2 [ea], data` (43_stores.md R141). -/
def execSt2 (ea data : Word) (s : State) : Host.Outcome State Fault Refusal :=
  runCycle (helperSt .half ea data) s

/-- `st.1 [ea], data` (43_stores.md R142). -/
def execSt1 (ea data : Word) (s : State) : Host.Outcome State Fault Refusal :=
  runCycle (helperSt .byte ea data) s

end Sys2Proof.Machine
end

