-- ==== Sys2Proof/Machine/Guest.lean ====
section
/-! DEFINITION. The guest words of the informative front end (30_encoding.md R90, log 3): each builds its record from
the register file as it stands at the start of the cycle (70 R194) and runs the record's helper. -/

namespace Sys2Proof.Machine

/-- The effective address `x[rs1] + imm` (30_encoding.md R90). -/
def guestEa (s : State) (rs1 : RegIdx) (off : BitVec 12) : Word := add32 (readReg s rs1) (imm12 off)

/-- `jal rd, off`: `DI{op=JAL, rd, src1=immJ}`. -/
def execRvJal (rd : RegIdx) (off : BitVec 21) (s : State) : Host.Outcome State Fault Refusal :=
  runCycle (helperJal rd (immJ off)) s

/-- `jalr rd, off(rs1)`: `DI{op=JALR, rd, src1=x[rs1], src2=immI}`. -/
def execRvJalr (rd rs1 : RegIdx) (off : BitVec 12) (s : State) : Host.Outcome State Fault Refusal :=
  runCycle (helperJalr rd (readReg s rs1) (imm12 off)) s

/-- `lb rd, off(rs1)`: `DI{op=LB, rd, src1=x[rs1]+immI}`. -/
def execRvLb (rd rs1 : RegIdx) (off : BitVec 12) (s : State) : Host.Outcome State Fault Refusal :=
  runCycle (helperLdSigned .byte rd (guestEa s rs1 off)) s

/-- `lh rd, off(rs1)`: `DI{op=LH, rd, src1=x[rs1]+immI}`. -/
def execRvLh (rd rs1 : RegIdx) (off : BitVec 12) (s : State) : Host.Outcome State Fault Refusal :=
  runCycle (helperLdSigned .half rd (guestEa s rs1 off)) s

/-- `lw rd, off(rs1)`: `DI{op=LD, width=4, rd, src1=x[rs1]+immI}`. -/
def execRvLw (rd rs1 : RegIdx) (off : BitVec 12) (s : State) : Host.Outcome State Fault Refusal :=
  runCycle (helperLd .word rd (guestEa s rs1 off)) s

/-- `lbu rd, off(rs1)`: `DI{op=LD, width=1, rd, src1=x[rs1]+immI}`. -/
def execRvLbu (rd rs1 : RegIdx) (off : BitVec 12) (s : State) : Host.Outcome State Fault Refusal :=
  runCycle (helperLd .byte rd (guestEa s rs1 off)) s

/-- `lhu rd, off(rs1)`: `DI{op=LD, width=2, rd, src1=x[rs1]+immI}`. -/
def execRvLhu (rd rs1 : RegIdx) (off : BitVec 12) (s : State) : Host.Outcome State Fault Refusal :=
  runCycle (helperLd .half rd (guestEa s rs1 off)) s

/-- `sb rs2, off(rs1)`: `DI{op=ST, width=1, src1=x[rs1]+immS, src2=x[rs2]}`. -/
def execRvSb (rs2 rs1 : RegIdx) (off : BitVec 12) (s : State) : Host.Outcome State Fault Refusal :=
  runCycle (helperSt .byte (guestEa s rs1 off) (readReg s rs2)) s

/-- `sh rs2, off(rs1)`: `DI{op=ST, width=2, src1=x[rs1]+immS, src2=x[rs2]}`. -/
def execRvSh (rs2 rs1 : RegIdx) (off : BitVec 12) (s : State) : Host.Outcome State Fault Refusal :=
  runCycle (helperSt .half (guestEa s rs1 off) (readReg s rs2)) s

/-- `sw rs2, off(rs1)`: `DI{op=ST, width=4, src1=x[rs1]+immS, src2=x[rs2]}`. -/
def execRvSw (rs2 rs1 : RegIdx) (off : BitVec 12) (s : State) : Host.Outcome State Fault Refusal :=
  runCycle (helperSt .word (guestEa s rs1 off) (readReg s rs2)) s

end Sys2Proof.Machine
end

