-- ==== Sys2Proof/Machine/Dispatch.lean ====
section
/-! DEFINITION. One arm per instruction. -/

namespace Sys2Proof.Machine

def exec (i : Instr) (s : State) : Host.Outcome State Fault Refusal :=
  match i with
  | .jal rd imm => Sys2Proof.Machine.execJal rd imm s
  | .jalr rd base off => Sys2Proof.Machine.execJalr rd base off s
  | .ld4 rd ea => Sys2Proof.Machine.execLd4 rd ea s
  | .ld2 rd ea => Sys2Proof.Machine.execLd2 rd ea s
  | .ld1 rd ea => Sys2Proof.Machine.execLd1 rd ea s
  | .lh rd ea => Sys2Proof.Machine.execLh rd ea s
  | .lb rd ea => Sys2Proof.Machine.execLb rd ea s
  | .st4 ea data => Sys2Proof.Machine.execSt4 ea data s
  | .st2 ea data => Sys2Proof.Machine.execSt2 ea data s
  | .st1 ea data => Sys2Proof.Machine.execSt1 ea data s
  | .rvJal rd off => Sys2Proof.Machine.execRvJal rd off s
  | .rvJalr rd rs1 off => Sys2Proof.Machine.execRvJalr rd rs1 off s
  | .rvLb rd rs1 off => Sys2Proof.Machine.execRvLb rd rs1 off s
  | .rvLh rd rs1 off => Sys2Proof.Machine.execRvLh rd rs1 off s
  | .rvLw rd rs1 off => Sys2Proof.Machine.execRvLw rd rs1 off s
  | .rvLbu rd rs1 off => Sys2Proof.Machine.execRvLbu rd rs1 off s
  | .rvLhu rd rs1 off => Sys2Proof.Machine.execRvLhu rd rs1 off s
  | .rvSb rs2 rs1 off => Sys2Proof.Machine.execRvSb rs2 rs1 off s
  | .rvSh rs2 rs1 off => Sys2Proof.Machine.execRvSh rs2 rs1 off s
  | .rvSw rs2 rs1 off => Sys2Proof.Machine.execRvSw rs2 rs1 off s

end Sys2Proof.Machine
end

