-- ==== Sys2Proof/WellFormed.lean ====
section
/-! DEFINITION. Which terms of `Instr` are instructions.  The types bound every operand but one: the jump
offset of the guest `jal` is "always even" (30_encoding.md R89). -/

namespace Sys2Proof

/-- The instruction has an encoding. -/
def Instr.wellFormed : Instr → Bool
  | .rvJal _ off => off.getLsbD 0 == false
  | .jal .. | .jalr .. | .ld4 .. | .ld2 .. | .ld1 .. | .lh .. | .lb .. | .st4 .. | .st2 .. | .st1 ..
  | .rvJalr .. | .rvLb .. | .rvLh .. | .rvLw .. | .rvLbu .. | .rvLhu .. | .rvSb .. | .rvSh .. | .rvSw .. => true

end Sys2Proof
end

