-- ==== Sys2Proof/Decode.lean ====
section
/-! DEFINITION. The decoder of records (30_encoding.md R71 to R79) and of guest words (the informative annex,
R88 to R91), then the encoder and the opcode table's match and mask, written from the same tables. -/

namespace Sys2Proof

/-! ### The record's fields (30_encoding.md R71) -/

/-- `DI.op = DI[74:72]`. -/
def recOp (d : Record) : BitVec 3 := d.extractLsb' 72 3
/-- `DI.width = DI[71:69]`. -/
def recWidth (d : Record) : BitVec 3 := d.extractLsb' 69 3
/-- `DI.rd = DI[68:64]`, as a register index. -/
def recRd (d : Record) : RegIdx := (d.extractLsb' 64 5).toFin
/-- `DI.src2 = DI[63:32]`. -/
def recSrc2 (d : Record) : Word := d.extractLsb' 32 32
/-- `DI.src1 = DI[31:0]`. -/
def recSrc1 (d : Record) : Word := d.extractLsb' 0 32

/-- The record with the given fields (30_encoding.md R71). -/
def mkRecord (op width : BitVec 3) (rd : RegIdx) (src2 src1 : Word) : Record :=
  op ++ width ++ BitVec.ofFin (w := 5) rd ++ src2 ++ src1

/-- The `LD` and `ST` families' second dispatch, on the width tag (30_encoding.md R73, R76, R79). -/
def decodeWidth (w : BitVec 3) : Except DecodeError Width :=
  if w = 4#3 then .ok .word
  else if w = 2#3 then .ok .half
  else if w = 1#3 then .ok .byte
  else .error .unsupportedWidth

/-- The dispatch map (30_encoding.md R72, R74, R76): the family tag first, then for `LD` and `ST` the width
(60_exceptions.md R164).  Reserved tags and unsupported widths are rejected by name (R78, R79). -/
def decodeRecord (d : Record) : Except DecodeError Instr :=
  if recOp d = 1#3 then .ok (.jal (recRd d) (recSrc1 d))
  else if recOp d = 2#3 then .ok (.jalr (recRd d) (recSrc1 d) (recSrc2 d))
  else if recOp d = 3#3 then
    match decodeWidth (recWidth d) with
    | .ok .word => .ok (.ld4 (recRd d) (recSrc1 d))
    | .ok .half => .ok (.ld2 (recRd d) (recSrc1 d))
    | .ok .byte => .ok (.ld1 (recRd d) (recSrc1 d))
    | .error e => .error e
  else if recOp d = 4#3 then
    match decodeWidth (recWidth d) with
    | .ok .word => .ok (.st4 (recSrc1 d) (recSrc2 d))
    | .ok .half => .ok (.st2 (recSrc1 d) (recSrc2 d))
    | .ok .byte => .ok (.st1 (recSrc1 d) (recSrc2 d))
    | .error e => .error e
  else if recOp d = 5#3 then .ok (.lh (recRd d) (recSrc1 d))
  else if recOp d = 6#3 then .ok (.lb (recRd d) (recSrc1 d))
  else .error .reservedTag

/-! ### The guest word's fields (30_encoding.md R88, R89) -/

/-- `opcode = w[6:0]`. -/
def gOpcode (w : BitVec 32) : BitVec 7 := w.extractLsb' 0 7
/-- `rd = w[11:7]`. -/
def gRd (w : BitVec 32) : RegIdx := (w.extractLsb' 7 5).toFin
/-- `funct3 = w[14:12]`. -/
def gFunct3 (w : BitVec 32) : BitVec 3 := w.extractLsb' 12 3
/-- `rs1 = w[19:15]`. -/
def gRs1 (w : BitVec 32) : RegIdx := (w.extractLsb' 15 5).toFin
/-- `rs2 = w[24:20]`. -/
def gRs2 (w : BitVec 32) : RegIdx := (w.extractLsb' 20 5).toFin
/-- The 12 bits of `immI`. -/
def gImmI (w : BitVec 32) : BitVec 12 := w.extractLsb' 20 12
/-- The 12 bits of `immS`. -/
def gImmS (w : BitVec 32) : BitVec 12 := w.extractLsb' 25 7 ++ w.extractLsb' 7 5
/-- The 21 bits of `immJ`: `{w[31], w[19:12], w[20], w[30:21], 0}`. -/
def gImmJ (w : BitVec 32) : BitVec 21 :=
  w.extractLsb' 31 1 ++ w.extractLsb' 12 8 ++ w.extractLsb' 20 1 ++ w.extractLsb' 21 10 ++ 0#1

/-- The front end's map from guest words (30_encoding.md R90); any other word is rejected (R91). -/
def decodeGuest (w : BitVec 32) : Except DecodeError Instr :=
  if gOpcode w = 0b1101111#7 then .ok (.rvJal (gRd w) (gImmJ w))
  else if gOpcode w = 0b1100111#7 then
    if gFunct3 w = 0b000#3 then .ok (.rvJalr (gRd w) (gRs1 w) (gImmI w))
    else .error .unmappedWord
  else if gOpcode w = 0b0000011#7 then
    if gFunct3 w = 0b000#3 then .ok (.rvLb (gRd w) (gRs1 w) (gImmI w))
    else if gFunct3 w = 0b001#3 then .ok (.rvLh (gRd w) (gRs1 w) (gImmI w))
    else if gFunct3 w = 0b010#3 then .ok (.rvLw (gRd w) (gRs1 w) (gImmI w))
    else if gFunct3 w = 0b100#3 then .ok (.rvLbu (gRd w) (gRs1 w) (gImmI w))
    else if gFunct3 w = 0b101#3 then .ok (.rvLhu (gRd w) (gRs1 w) (gImmI w))
    else .error .unmappedWord
  else if gOpcode w = 0b0100011#7 then
    if gFunct3 w = 0b000#3 then .ok (.rvSb (gRs2 w) (gRs1 w) (gImmS w))
    else if gFunct3 w = 0b001#3 then .ok (.rvSh (gRs2 w) (gRs1 w) (gImmS w))
    else if gFunct3 w = 0b010#3 then .ok (.rvSw (gRs2 w) (gRs1 w) (gImmS w))
    else .error .unmappedWord
  else .error .unmappedWord

/-- The decoder, total on the bits of either kind of word. -/
def decode : Code → Except DecodeError Instr
  | .record d => decodeRecord d
  | .guest w => decodeGuest w

/-- The instruction the decoder reads from the bits `w` of a row of `nbits` bits: a guest word where the row has
at most 32 bits, else a record. -/
def decodeTableWord (nbits w : Nat) : Option Instr :=
  (if nbits ≤ 32 then decodeGuest (BitVec.ofNat 32 w) else decodeRecord (BitVec.ofNat 75 w)).toOption

/-! ### The encoder -/

/-- The J format (30_encoding.md R90): `{imm[20], imm[10:1], imm[11], imm[19:12], rd, opcode}`. -/
def encodeJ (off : BitVec 21) (rd : RegIdx) (opcode : BitVec 7) : BitVec 32 :=
  off.extractLsb' 20 1 ++ off.extractLsb' 1 10 ++ off.extractLsb' 11 1 ++ off.extractLsb' 12 8
    ++ BitVec.ofFin (w := 5) rd ++ opcode

/-- The I format (30_encoding.md R90): `{imm[11:0], rs1, funct3, rd, opcode}`. -/
def encodeI (off : BitVec 12) (rs1 : RegIdx) (funct3 : BitVec 3) (rd : RegIdx) (opcode : BitVec 7) : BitVec 32 :=
  off ++ BitVec.ofFin (w := 5) rs1 ++ funct3 ++ BitVec.ofFin (w := 5) rd ++ opcode

/-- The S format (30_encoding.md R90): `{imm[11:5], rs2, rs1, funct3, imm[4:0], opcode}`. -/
def encodeS (off : BitVec 12) (rs2 rs1 : RegIdx) (funct3 : BitVec 3) (opcode : BitVec 7) : BitVec 32 :=
  off.extractLsb' 5 7 ++ BitVec.ofFin (w := 5) rs2 ++ BitVec.ofFin (w := 5) rs1 ++ funct3
    ++ off.extractLsb' 0 5 ++ opcode

/-- The word of an instruction; record fields the helper does not read are written as 0 (30_encoding.md R82). -/
def encode : Instr → Code
  | .jal rd imm => .record (mkRecord 1 0 rd 0 imm)
  | .jalr rd base off => .record (mkRecord 2 0 rd off base)
  | .ld4 rd ea => .record (mkRecord 3 4 rd 0 ea)
  | .ld2 rd ea => .record (mkRecord 3 2 rd 0 ea)
  | .ld1 rd ea => .record (mkRecord 3 1 rd 0 ea)
  | .lh rd ea => .record (mkRecord 5 0 rd 0 ea)
  | .lb rd ea => .record (mkRecord 6 0 rd 0 ea)
  | .st4 ea data => .record (mkRecord 4 4 0 data ea)
  | .st2 ea data => .record (mkRecord 4 2 0 data ea)
  | .st1 ea data => .record (mkRecord 4 1 0 data ea)
  | .rvJal rd off => .guest (encodeJ off rd 0b1101111#7)
  | .rvJalr rd rs1 off => .guest (encodeI off rs1 0b000#3 rd 0b1100111#7)
  | .rvLb rd rs1 off => .guest (encodeI off rs1 0b000#3 rd 0b0000011#7)
  | .rvLh rd rs1 off => .guest (encodeI off rs1 0b001#3 rd 0b0000011#7)
  | .rvLw rd rs1 off => .guest (encodeI off rs1 0b010#3 rd 0b0000011#7)
  | .rvLbu rd rs1 off => .guest (encodeI off rs1 0b100#3 rd 0b0000011#7)
  | .rvLhu rd rs1 off => .guest (encodeI off rs1 0b101#3 rd 0b0000011#7)
  | .rvSb rs2 rs1 off => .guest (encodeS off rs2 rs1 0b000#3 0b0100011#7)
  | .rvSh rs2 rs1 off => .guest (encodeS off rs2 rs1 0b001#3 0b0100011#7)
  | .rvSw rs2 rs1 off => .guest (encodeS off rs2 rs1 0b010#3 0b0100011#7)

/-! ### The opcode table -/

/-- A row of spec/opcode_table.json: a word `w` selects it when `w & mask = pattern` (30_encoding.md R76). -/
structure OpcodeRow (n : Nat) where
  mnemonic : String
  pattern : BitVec n
  mask : BitVec n
deriving DecidableEq, Repr

/-- The word selects the row. -/
def OpcodeRow.selectedBy {n : Nat} (r : OpcodeRow n) (w : BitVec n) : Bool := w &&& r.mask == r.pattern

/-- The dispatch map's ten rows (30_encoding.md R76). -/
def recordRows : List (OpcodeRow 75) :=
  [⟨"jal", 0x1000000000000000000#75, 0x7000000000000000000#75⟩,
   ⟨"jalr", 0x2000000000000000000#75, 0x7000000000000000000#75⟩,
   ⟨"ld.4", 0x3800000000000000000#75, 0x7E00000000000000000#75⟩,
   ⟨"ld.2", 0x3400000000000000000#75, 0x7E00000000000000000#75⟩,
   ⟨"ld.1", 0x3200000000000000000#75, 0x7E00000000000000000#75⟩,
   ⟨"lh", 0x5000000000000000000#75, 0x7000000000000000000#75⟩,
   ⟨"lb", 0x6000000000000000000#75, 0x7000000000000000000#75⟩,
   ⟨"st.4", 0x4800000000000000000#75, 0x7E00000000000000000#75⟩,
   ⟨"st.2", 0x4400000000000000000#75, 0x7E00000000000000000#75⟩,
   ⟨"st.1", 0x4200000000000000000#75, 0x7E00000000000000000#75⟩]

/-- The front end's ten rows (spec/opcode_table.json, formats FE-J, FE-I and FE-S). -/
def guestRows : List (OpcodeRow 32) :=
  [⟨"rv32.jal", 0x0000006F#32, 0x0000007F#32⟩,
   ⟨"rv32.jalr", 0x00000067#32, 0x0000707F#32⟩,
   ⟨"rv32.lb", 0x00000003#32, 0x0000707F#32⟩,
   ⟨"rv32.lh", 0x00001003#32, 0x0000707F#32⟩,
   ⟨"rv32.lw", 0x00002003#32, 0x0000707F#32⟩,
   ⟨"rv32.lbu", 0x00004003#32, 0x0000707F#32⟩,
   ⟨"rv32.lhu", 0x00005003#32, 0x0000707F#32⟩,
   ⟨"rv32.sb", 0x00000023#32, 0x0000707F#32⟩,
   ⟨"rv32.sh", 0x00001023#32, 0x0000707F#32⟩,
   ⟨"rv32.sw", 0x00002023#32, 0x0000707F#32⟩]

/-- The mnemonics of the table's rows that a code selects. -/
def rowsSelected : Code → List String
  | .record d => (recordRows.filter (·.selectedBy d)).map (·.mnemonic)
  | .guest w => (guestRows.filter (·.selectedBy w)).map (·.mnemonic)

end Sys2Proof
end

