-- ==== Sys2Proof/Machine/Supply.lean ====
section
/-! DEFINITION. Where a cycle's instruction comes from: the record port (00_scope.md R6, log 2) or the reference
front end (30_encoding.md R86 to R91, log 3). -/

namespace Sys2Proof.Machine

/-- What the next cycle has to run. -/
inductive Offer where
  /-- An instruction, and the state its cycle starts from: the record is consumed (30_encoding.md R70). -/
  | run (i : Instr) (s : State)
  /-- A record that is Fatal (60_exceptions.md R161). -/
  | fatal (kind : FatalKind)
  /-- The front end's fetch is not admitted (20_memory.md R66). -/
  | stuck (f : Fault)
  /-- Nothing is offered (70 R203). -/
  | nothing
deriving DecidableEq, Repr

/-- The front end's fetch: `w = MemRead(pc, 4)` (30_encoding.md R87). -/
def fetchWord (s : State) : Except Fault (BitVec 32) :=
  if memAdmits s s.pc .word .read then .ok (memRead s.mem s.pc .word) else .error (.fetchNotAdmitted s.pc)

/-- The record an instruction runs as: a guest word's by 30_encoding.md R90, a record instruction's own. -/
def recordOf (i : Instr) (s : State) : Record :=
  match i with
  | .jal rd imm => mkRecord 1 0 rd 0 imm
  | .jalr rd base off => mkRecord 2 0 rd off base
  | .ld4 rd ea => mkRecord 3 4 rd 0 ea
  | .ld2 rd ea => mkRecord 3 2 rd 0 ea
  | .ld1 rd ea => mkRecord 3 1 rd 0 ea
  | .lh rd ea => mkRecord 5 0 rd 0 ea
  | .lb rd ea => mkRecord 6 0 rd 0 ea
  | .st4 ea data => mkRecord 4 4 0 data ea
  | .st2 ea data => mkRecord 4 2 0 data ea
  | .st1 ea data => mkRecord 4 1 0 data ea
  | .rvJal rd off => mkRecord 1 0 rd 0 (immJ off)
  | .rvJalr rd rs1 off => mkRecord 2 0 rd (imm12 off) (readReg s rs1)
  | .rvLb rd rs1 off => mkRecord 6 0 rd 0 (guestEa s rs1 off)
  | .rvLh rd rs1 off => mkRecord 5 0 rd 0 (guestEa s rs1 off)
  | .rvLw rd rs1 off => mkRecord 3 4 rd 0 (guestEa s rs1 off)
  | .rvLbu rd rs1 off => mkRecord 3 1 rd 0 (guestEa s rs1 off)
  | .rvLhu rd rs1 off => mkRecord 3 2 rd 0 (guestEa s rs1 off)
  | .rvSb rs2 rs1 off => mkRecord 4 1 0 (readReg s rs2) (guestEa s rs1 off)
  | .rvSh rs2 rs1 off => mkRecord 4 2 0 (readReg s rs2) (guestEa s rs1 off)
  | .rvSw rs2 rs1 off => mkRecord 4 4 0 (readReg s rs2) (guestEa s rs1 off)

/-- The record the front end builds from the guest word `w`; a word it does not map becomes `DI{op=0}`
(30_encoding.md R90, R91). -/
def frontEndRecord (w : BitVec 32) (s : State) : Record :=
  match decodeGuest w with
  | .ok i => recordOf i s
  | .error _ => 0#75

/-- What the next cycle has to run. -/
def nextOffer (s : State) : Offer :=
  match s.supply with
  | .records [] => .nothing
  | .records (d :: rest) =>
    match decodeRecord d with
    | .ok i => .run i { s with supply := .records rest }
    | .error e => .fatal (fatalKindOf e)
  | .frontEnd =>
    match fetchWord s with
    | .error f => .stuck f
    | .ok w =>
      match decodeGuest w with
      | .ok i => .run i s
      | .error e => .fatal (fatalKindOf e)

/-- Offer a record for the next cycle, in the place of the one that is next. -/
def placeRecord (d : Record) (s : State) : State :=
  match s.supply with
  | .records (_ :: rest) => { s with supply := .records (d :: rest), resetReq := false }
  | _ => { s with supply := .records [d], resetReq := false }

/-- Store a guest word at `pc` and let the front end build the records. -/
def placeGuestWord (w : BitVec 32) (s : State) : State :=
  { s with mem := memWrite s.mem s.pc .word w, supply := .frontEnd, resetReq := false }

end Sys2Proof.Machine
end

