-- ==== Sys2Proof/Machine/Step.lean ====
section
/-! DEFINITION. One step of the machine: an asserted reset input first (70_reset_and_hazards.md R190), else one
execution cycle of the block (40_cycle_and_primitives.md R100). -/

namespace Sys2Proof.Machine

def step (s : State) : Host.Outcome State Fault Refusal :=
  if s.resetReq then .next (resetBlock s)
  else if s.fatal then .fault (.fatalLatched s.fatalKind)
  else
    match nextOffer s with
    | .run i t => exec i t
    | .fatal k => .next (takeFatal k s)
    | .stuck f => .fault f
    | .nothing => .refused .noRecord

/-- The state whose very next step runs the word `w` of a row of `nbits` bits: a guest word (at most 32 bits) lies at
`pc` for the front end, a record is offered at the record port (log 2, log 3). -/
def State.withFetchWord (s : State) (nbits w : Nat) : State :=
  if nbits ≤ 32 then placeGuestWord (BitVec.ofNat 32 w) s else placeRecord (BitVec.ofNat 75 w) s

end Sys2Proof.Machine
end

