-- ==== Sys2Proof/Machine/Ports.lean ====
section
/-! DEFINITION. The ports beside the record input: the register file's name lookup, value lookup, dump and index read
(44_register_file_ports.md), the debugger's memory read (60_exceptions.md R169, R173), the fatal status output
(92 D1) and what a reference model receives (60 R170).  They read a state as it stands between cycles, change
nothing, and do not answer while the fatal latch is set (44 R157).  The name table is an argument (log 16). -/

namespace Sys2Proof.Machine

/-- A port's answer; `none` while the fatal latch is set (44_register_file_ports.md R157). -/
def answer {α : Type} (s : State) (v : α) : Option α := if s.fatal then none else some v

/-- The index with the given name, by exact string equality (44_register_file_ports.md R151, log 16). -/
def findReg (names : NameTable) (n : String) : Option RegIdx :=
  (List.finRange 32).find? fun i => decide (names.reg[i] = n)

/-- `index_of(name) -> (index, found)` (44_register_file_ports.md R151). -/
def indexOf (names : NameTable) (s : State) (n : String) : Option (RegIdx × Bool) :=
  answer s (match findReg names n with
    | some i => (i, true)
    | none => (0, false))

/-- `name_of(i) -> name` (44_register_file_ports.md R152). -/
def nameOf (names : NameTable) (s : State) (i : RegIdx) : Option String := answer s names.reg[i]

/-- `value_of(name)` on a state whose ports answer (44_register_file_ports.md R153). -/
def lookupValue (names : NameTable) (s : State) (n : String) : Word × Bool :=
  if n = names.pc then (s.pc, true)
  else
    match findReg names n with
    | some i => (readReg s i, true)
    | none => (0#32, false)

/-- `value_of(name) -> (value, found)` (44_register_file_ports.md R153). -/
def valueOf (names : NameTable) (s : State) (n : String) : Option (Word × Bool) :=
  answer s (lookupValue names s n)

/-- The index read port as the decoder sees it (44_register_file_ports.md R156, R157). -/
def readRegPort (s : State) (i : RegIdx) : Option Word := answer s (readReg s i)

/-- `0x` and 8 lower-case hexadecimal digits (44_register_file_ports.md R155). -/
def hex8 (v : Word) : String :=
  String.ofList ('0' :: 'x' :: (List.range 8).map fun k => Nat.digitChar (v.toNat >>> (4 * (7 - k)) % 16))

/-- An entry of the dump: name, hexadecimal, signed decimal (44_register_file_ports.md R155). -/
structure DumpEntry where
  name : String
  hex : String
  dec : Int
deriving DecidableEq, Repr

/-- The entry of one value. -/
def dumpEntry (name : String) (v : Word) : DumpEntry := ⟨name, hex8 v, v.toInt⟩

/-- The dump: the general registers in index order, then the program counter (44_register_file_ports.md R155,
log 17). -/
def dump (names : NameTable) (s : State) : Option (List DumpEntry) :=
  answer s (((List.finRange 32).map fun i => dumpEntry names.reg[i] (readReg s i)) ++ [dumpEntry names.pc s.pc])

/-- An entry's line of text (44_register_file_ports.md R155, log 17). -/
def dumpLine (e : DumpEntry) : String := e.name ++ "\t" ++ e.hex ++ "\t" ++ toString e.dec ++ "\n"

/-- The dump's text. -/
def dumpText (names : NameTable) (s : State) : Option String :=
  (dump names s).map fun es => String.join (es.map dumpLine)

/-- The debugger's memory read, 4 bytes through the loads' path (60_exceptions.md R169, R173); no answer where the
access is not admitted (20_memory.md R66). -/
def debugRead (s : State) (addr : Word) : Option Word :=
  if memAdmits s addr .word .read then answer s (memRead s.mem addr .word) else none

/-- The fatal status output: the latch and the kind (60_exceptions.md R161). -/
def fatalStatus (s : State) : Bool × BitVec 2 := (s.fatal, s.fatalKind)

/-- What a differential tester receives after a cycle: the `skip` events, and nothing where none is attached
(40 R107, 60 R170, `REF_MODEL_ATTACHED`). -/
def testerReceives (attached : Bool) (s : State) : List (Nat × Nat) :=
  if attached then
    s.events.filterMap fun e =>
      match e with
      | .skip n reason => some (n, reason)
      | .memRead .. => none
      | .memWrite .. => none
  else []

end Sys2Proof.Machine
end

