-- ==== Sys2Proof/Machine/Evaluator.lean ====
section
/-! DEFINITION. The Debug Expression Evaluator as a client of the ports (60_exceptions.md R172 to R182).  The spec puts
it outside the block (00_scope.md R5): no step uses it, and it only reads.  The kinds, their spellings, the bases of the
literals and the order of the rules and ranks are the rules'; what the source does not give (the register and
whitespace patterns, the table's other order and the ranks' numbers: 91_not_in_source.md N14) is an argument that
`EvalParams.wf` ties to what the rules state (log 20). -/

namespace Sys2Proof.Machine

/-- The token kinds the source names (60_exceptions.md R175), the last three after reclassification (R176).  `assign`
is the lone `=` of R174, of which N14 leaves open whether it is a token: a table may hold a rule for it or not. -/
inductive TokenKind where
  | dec | hex | reg | lparen | rparen
  | plus | minus | star | slash
  | lt | gt | le | ge | eq | ne | land | lor
  | assign
  | deref | pos | neg
deriving DecidableEq, Repr

/-- A token (60_exceptions.md R174). -/
structure Token where
  kind : TokenKind
  lexeme : String
deriving DecidableEq, Repr

/-- The text of a kind that has one (60_exceptions.md R175). -/
def TokenKind.spelling : TokenKind → Option (List Char)
  | .lparen => some ['(']
  | .rparen => some [')']
  | .plus => some ['+']
  | .minus => some ['-']
  | .star => some ['*']
  | .slash => some ['/']
  | .lt => some ['<']
  | .gt => some ['>']
  | .le => some ['<', '=']
  | .ge => some ['>', '=']
  | .eq => some ['=', '=']
  | .ne => some ['!', '=']
  | .land => some ['&', '&']
  | .lor => some ['|', '|']
  | .assign => some ['=']
  | .dec | .hex | .reg | .deref | .pos | .neg => none

/-- The kinds of R175 that have a text; every table has a rule for each (60_exceptions.md R175). -/
def spelledKinds : List TokenKind :=
  [.lparen, .rparen, .plus, .minus, .star, .slash, .lt, .gt, .le, .ge, .eq, .ne, .land, .lor]

/-- A lexical rule: a pattern and what it yields (60_exceptions.md R174).  The register and the whitespace pattern are
not in the source: each is a function that says how many characters it takes at the front of a text (log 20). -/
inductive LexRule where
  | whitespace (takes : List Char → Option Nat)
  | register (takes : List Char → Option Nat)
  | decimal
  | hexadecimal
  | spelled (k : TokenKind)

/-- The text begins with the given one. -/
def beginsWith (sp cs : List Char) : Bool := decide (cs.take sp.length = sp)

/-- The value of a digit of base 16; 16 for a character that is none. -/
def digitValue (c : Char) : Nat :=
  if '0'.toNat ≤ c.toNat ∧ c.toNat ≤ '9'.toNat then c.toNat - '0'.toNat
  else if 'a'.toNat ≤ c.toNat ∧ c.toNat ≤ 'f'.toNat then c.toNat - 'a'.toNat + 10
  else if 'A'.toNat ≤ c.toNat ∧ c.toNat ≤ 'F'.toNat then c.toNat - 'A'.toNat + 10
  else 16

/-- The character is a digit of the base. -/
def isDigitOf (base : Nat) (c : Char) : Bool := decide (digitValue c < base)

/-- The number of digits of the base at the front of a text; none where there is no digit. -/
def digitRun (base : Nat) (cs : List Char) : Option Nat :=
  match (cs.takeWhile (isDigitOf base)).length with
  | 0 => none
  | n + 1 => some (n + 1)

/-- The digits of a hexadecimal literal, written `0x` and digits as in 95_test_vectors.md E5 (log 20). -/
def hexDigits (cs : List Char) : Option (List Char) :=
  if beginsWith ['0', 'x'] cs then some (cs.drop 2) else none

/-- How many characters the rule takes at the front of a text (60_exceptions.md R175). -/
def LexRule.takes : LexRule → List Char → Option Nat
  | .whitespace f, cs => f cs
  | .register f, cs => f cs
  | .decimal, cs => digitRun 10 cs
  | .hexadecimal, cs => (hexDigits cs).bind fun ds => (digitRun 16 ds).map (2 + ·)
  | .spelled k, cs => k.spelling.bind fun sp => if beginsWith sp cs then some sp.length else none

/-- The kind the rule yields; none for whitespace (60_exceptions.md R175). -/
def LexRule.yields : LexRule → Option TokenKind
  | .whitespace _ => none
  | .register _ => some .reg
  | .decimal => some .dec
  | .hexadecimal => some .hex
  | .spelled k => some k

/-- The lexical rule table, in match order, and the precedence ranks, a larger one binding more loosely
(60_exceptions.md R174). -/
structure EvalParams where
  rules : List LexRule
  rank : TokenKind → Nat

/-- An operator token: neither a value nor a parenthesis. -/
def TokenKind.isOperator : TokenKind → Bool
  | .dec | .hex | .reg | .lparen | .rparen | .assign => false
  | .plus | .minus | .star | .slash | .lt | .gt | .le | .ge | .eq | .ne | .land | .lor | .deref | .pos | .neg => true

/-- A unary-class operator (60_exceptions.md R180). -/
def TokenKind.isUnary : TokenKind → Bool
  | .deref | .pos | .neg => true
  | .dec | .hex | .reg | .lparen | .rparen | .plus | .minus | .star | .slash | .lt | .gt | .le | .ge | .eq | .ne
  | .land | .lor | .assign => false

/-- The table has a rule for whitespace and one for every kind the source names (60_exceptions.md R175). -/
def rulesComplete (rules : List LexRule) : Prop :=
  (∀ k ∈ spelledKinds, LexRule.spelled k ∈ rules) ∧ LexRule.decimal ∈ rules ∧ LexRule.hexadecimal ∈ rules ∧
    (∃ f, LexRule.register f ∈ rules) ∧ ∃ f, LexRule.whitespace f ∈ rules

/-- The earlier rule may stand before the later one: "longer/more specific patterns must precede shorter ones that
would otherwise shadow them, e.g. `==` before `=`, hexadecimal literal before decimal literal" (60_exceptions.md
R174). -/
def mayPrecede : LexRule → LexRule → Bool
  | .spelled k, .spelled l =>
    match k.spelling, l.spelling with
    | some sp, some tp => !(beginsWith sp tp && decide (sp.length < tp.length))
    | _, _ => true
  | .decimal, .hexadecimal => false
  | _, _ => true

/-- A character with which a text of R175 or a literal begins. -/
def opensToken (c : Char) : Bool :=
  isDigitOf 10 c || decide (c ∈ ['(', ')', '+', '-', '*', '/', '<', '>', '=', '!', '&', '|'])

/-- The register and whitespace patterns shadow no other kind: neither matches a text that begins as an operator, a
parenthesis or a literal does.  With this "A single `&` matches no rule" (60_exceptions.md R174, R175; DEDUCED,
log 20). -/
def patternsApart (rules : List LexRule) : Prop :=
  ∀ c cs, opensToken c = true →
    (∀ f, LexRule.register f ∈ rules → f (c :: cs) = none) ∧ ∀ f, LexRule.whitespace f ∈ rules → f (c :: cs) = none

/-- "dereference and unary sign bind tightest; logical-or loosest" (60_exceptions.md R174).  Of the tight ones a sign
binds tighter than dereference, "so `*-5` parses as dereference of negation" (R176, 95_test_vectors.md E13), which R178
reads so only where dereference is the looser; and `*` binds tighter than `+` (E2; 91_not_in_source.md N14). -/
def ranksOrdered (rank : TokenKind → Nat) : Prop :=
  (∀ u k, u.isUnary = true → k.isOperator = true → k.isUnary = false → rank u < rank k) ∧
    (rank .pos < rank .deref ∧ rank .neg < rank .deref) ∧
    (∀ k, k.isOperator = true → k ≠ .lor → rank k < rank .lor) ∧ rank .star < rank .plus

/-- The arguments are as the rules state them (60_exceptions.md R174, R175). -/
def EvalParams.wf (P : EvalParams) : Prop :=
  rulesComplete P.rules ∧ P.rules.Pairwise (fun r q => mayPrecede r q = true) ∧ patternsApart P.rules ∧
    ranksOrdered P.rank

/-- The evaluator's errors (60_exceptions.md R181); `noOutcome` is a dereference the memory does not admit
(20_memory.md R66).  `lex` carries "the offending position" (R175), counted in characters from 0 (DESIGN CHOICE,
log 20). -/
inductive EvalError where
  | lex (position : Nat)
  | tooManyTokens
  | parse
  | eval
  | noOutcome
deriving DecidableEq, Repr

/-- The token capacity (60_exceptions.md R174). -/
def tokenCapacity : Nat := 32

/-- The first rule, in table order, that matches at the front of the input (60_exceptions.md R175): what it yields and
the number of characters it takes.  A match of no characters is taken as no match (log 20). -/
def firstMatch : List LexRule → List Char → Option (Option TokenKind × Nat)
  | [], _ => none
  | r :: rs, cs =>
    match r.takes cs with
    | some (n + 1) => some (r.yields, n + 1)
    | _ => firstMatch rs cs

/-- The tokenizer: `fuel` bounds the matches, `room` the tokens still allowed, `at_` is the position,
the number of characters before it (60_exceptions.md R174, R175; the count is a DESIGN CHOICE, log 20). -/
def tokenizeFrom (rules : List LexRule) : Nat → Nat → Nat → List Char → Except EvalError (List Token)
  | _, _, _, [] => .ok []
  | 0, _, at_, _ :: _ => .error (.lex at_)
  | fuel + 1, room, at_, c :: cs =>
    match firstMatch rules (c :: cs) with
    | none => .error (.lex at_)
    | some (none, n) => tokenizeFrom rules fuel room (at_ + n) ((c :: cs).drop n)
    | some (some k, n) =>
      match room with
      | 0 => .error .tooManyTokens
      | room + 1 =>
        match tokenizeFrom rules fuel room (at_ + n) ((c :: cs).drop n) with
        | .error e => .error e
        | .ok ts => .ok (⟨k, String.ofList ((c :: cs).take n)⟩ :: ts)

/-- The tokens of an expression string; its first character is at position 0 (DESIGN CHOICE, log 20). -/
def tokenize (rules : List LexRule) (text : String) : Except EvalError (List Token) :=
  tokenizeFrom rules text.toList.length tokenCapacity 0 text.toList

/-- A value-producing token: register, numeric literal, closing parenthesis, or reclassified unary sign; the
dereference operator is none (60_exceptions.md R176). -/
def TokenKind.producesValue : TokenKind → Bool
  | .dec | .hex | .reg | .rparen | .pos | .neg => true
  | .lparen | .plus | .minus | .star | .slash | .lt | .gt | .le | .ge | .eq | .ne | .land | .lor
  | .assign | .deref => false

/-- One left-to-right reclassification scan: `f` gives a token's unary kind, taken where no value-producing token
stands immediately before it (60_exceptions.md R176). -/
def reclassify (f : TokenKind → Option TokenKind) : Option TokenKind → List Token → List Token
  | _, [] => []
  | prev, t :: ts =>
    let t' := match f t.kind with
      | some k => if prev.any TokenKind.producesValue then t else { t with kind := k }
      | none => t
    t' :: reclassify f (some t'.kind) ts

/-- The dereference pass' reclassification (60_exceptions.md R176). -/
def derefKind : TokenKind → Option TokenKind
  | .star => some .deref
  | _ => none

/-- The unary-sign pass' reclassification (60_exceptions.md R176). -/
def unaryKind : TokenKind → Option TokenKind
  | .plus => some .pos
  | .minus => some .neg
  | _ => none

/-- Both passes, in their order (60_exceptions.md R176). -/
def reclassifyAll (ts : List Token) : List Token := reclassify unaryKind none (reclassify derefKind none ts)

/-- The parenthesis depth after a scan from depth `d`, none where it goes negative (60_exceptions.md R177). -/
def depthAfter : Nat → List Token → Option Nat
  | d, [] => some d
  | d, t :: ts =>
    match t.kind with
    | .lparen => depthAfter (d + 1) ts
    | .rparen =>
      match d with
      | 0 => none
      | d + 1 => depthAfter d ts
    | _ => depthAfter d ts

/-- The outcome of the parenthesis-balance check; `balanced` is the source's "open" (60_exceptions.md R177). -/
inductive ParenShape where
  | enclosed
  | malformed
  | balanced
deriving DecidableEq, Repr

/-- The tokens between the first and the last. -/
def innerTokens (ts : List Token) : List Token := (ts.drop 1).dropLast

/-- The parenthesis-balance check (60_exceptions.md R177). -/
def parenShape (ts : List Token) : ParenShape :=
  if (ts.head?.map (·.kind) = some .lparen ∧ ts.getLast?.map (·.kind) = some .rparen)
      ∧ (depthAfter 0 (innerTokens ts)).isSome then .enclosed
  else if (depthAfter 0 ts).isNone then .malformed
  else .balanced

/-- Main-operator selection (60_exceptions.md R178): among the operators at depth 0 the one of the largest rank, a later
one replacing an equal one; none on a malformed range.  `i` is the index, `d` the depth, `best` the index and rank
found so far. -/
def mainOperatorFrom (rank : TokenKind → Nat) : Nat → Nat → Option (Nat × Nat) → List Token → Option Nat
  | _, d, best, [] => if d = 0 then best.map (·.1) else none
  | i, d, best, t :: ts =>
    match t.kind with
    | .lparen => mainOperatorFrom rank (i + 1) (d + 1) best ts
    | .rparen =>
      match d with
      | 0 => none
      | d + 1 => mainOperatorFrom rank (i + 1) d best ts
    | k =>
      if d = 0 ∧ k.isOperator = true ∧ best.all (fun b => decide (b.2 ≤ rank k)) = true then
        mainOperatorFrom rank (i + 1) d (some (i, rank k)) ts
      else mainOperatorFrom rank (i + 1) d best ts

/-- Main-operator selection over a range. -/
def mainOperator (rank : TokenKind → Nat) (ts : List Token) : Option Nat := mainOperatorFrom rank 0 0 none ts

/-- 1 for true, 0 for false (60_exceptions.md R180). -/
def boolWord (b : Bool) : Word := if b then 1#32 else 0#32

/-- The unary operators (60_exceptions.md R180); none where the kind is not one. -/
def unaryOperator (s : State) : TokenKind → Option (Word → Except EvalError Word)
  | .deref => some fun a =>
      match debugRead s a with
      | some v => .ok v
      | none => .error .noOutcome
  | .pos => some fun a => .ok a
  | .neg => some fun a => .ok (-a)
  | _ => none

/-- The binary operators, all unsigned 32-bit with natural wraparound (60_exceptions.md R180). -/
def binaryOperator : TokenKind → Word → Word → Except EvalError Word
  | .plus, a, b => .ok (a + b)
  | .minus, a, b => .ok (a - b)
  | .star, a, b => .ok (a * b)
  | .slash, a, b => if b = 0#32 then .error .eval else .ok (a / b)
  | .lt, a, b => .ok (boolWord (a.ult b))
  | .gt, a, b => .ok (boolWord (b.ult a))
  | .le, a, b => .ok (boolWord (a.ule b))
  | .ge, a, b => .ok (boolWord (b.ule a))
  | .eq, a, b => .ok (boolWord (decide (a = b)))
  | .ne, a, b => .ok (boolWord (decide (a ≠ b)))
  | .land, a, b => .ok (boolWord (decide (a ≠ 0#32 ∧ b ≠ 0#32)))
  | .lor, a, b => .ok (boolWord (decide (a ≠ 0#32 ∨ b ≠ 0#32)))
  | _, _, _ => .error .parse

/-- The number that digits of a base write, the most significant first (60_exceptions.md R179); none where a character
is no digit of the base, or there is none. -/
def digitsValue (base : Nat) (ds : List Char) : Option Nat :=
  if ds ≠ [] ∧ ds.all (isDigitOf base) = true then some (ds.foldl (fun n c => base * n + digitValue c) 0) else none

/-- A literal's number, by its base: "literals parse per their base" (60_exceptions.md R179). -/
def literalNumber (hexadecimal : Bool) (lexeme : String) : Option Nat :=
  if hexadecimal then (hexDigits lexeme.toList).bind (digitsValue 16) else digitsValue 10 lexeme.toList

/-- A literal's value.  The spec states none for a number above 2^32 - 1: there it is a free value (log 20). -/
def evalLiteral (hexadecimal : Bool) (lexeme : String) : Except EvalError Word :=
  match literalNumber hexadecimal lexeme with
  | some n => .ok (if n < 2 ^ 32 then BitVec.ofNat 32 n else Config.overlongLiteral lexeme)
  | none => .error .eval

/-- The base case of one token (60_exceptions.md R179). -/
def evalToken (names : NameTable) (s : State) (t : Token) : Except EvalError Word :=
  match t.kind with
  | .dec => evalLiteral false t.lexeme
  | .hex => evalLiteral true t.lexeme
  | .reg =>
    match lookupValue names s t.lexeme with
    | (v, true) => .ok v
    | (_, false) => .error .eval
  | _ => .error .eval

/-- Evaluation of a token range (60_exceptions.md R179, R180); `fuel` bounds the recursion, and the number of tokens is
enough. -/
def evalRange (names : NameTable) (P : EvalParams) (s : State) : Nat → List Token → Except EvalError Word
  | _, [] => .error .parse
  | _, [t] => evalToken names s t
  | 0, _ :: _ :: _ => .error .parse
  | fuel + 1, t :: u :: ts =>
    match parenShape (t :: u :: ts) with
    | .malformed => .error .parse
    | .enclosed => evalRange names P s fuel (innerTokens (t :: u :: ts))
    | .balanced =>
      match mainOperator P.rank (t :: u :: ts) with
      | none => .error .parse
      | some op =>
        let k := (((t :: u :: ts).drop op).head?.map (·.kind)).getD .dec
        match unaryOperator s k with
        | some f => (evalRange names P s fuel ((t :: u :: ts).drop (op + 1))).bind f
        | none =>
          (evalRange names P s fuel ((t :: u :: ts).take op)).bind fun a =>
            (evalRange names P s fuel ((t :: u :: ts).drop (op + 1))).bind fun b => binaryOperator k a b

/-- Evaluation of a whole token sequence. -/
def evalTokens (names : NameTable) (P : EvalParams) (s : State) (ts : List Token) : Except EvalError Word :=
  evalRange names P s ts.length ts

/-- `expr(text) -> (value, success)` (60_exceptions.md R182): a failure is `(0, false)` (R172, R181).  `none` is no
answer: the fatal latch is set (44 R157), or a dereference is not admitted (20_memory.md R66). -/
def exprPort (names : NameTable) (P : EvalParams) (s : State) (text : String) : Option (Word × Bool) :=
  if s.fatal then none
  else
    match (tokenize P.rules text).bind fun ts => evalTokens names P s (reclassifyAll ts) with
    | .ok v => some (v, true)
    | .error .noOutcome => none
    | .error (.lex _) => some (0#32, false)
    | .error .tooManyTokens => some (0#32, false)
    | .error .parse => some (0#32, false)
    | .error .eval => some (0#32, false)

end Sys2Proof.Machine
end

