-- ==== Sys2Proof/Safety.lean ====
section
/-! DEFINITION. The terms claims are stated in: the invariant of the state (10_state.md R40), and what a completed cycle
leaves of a state, by the reads a program or a debugger can make. -/

namespace Sys2Proof.Machine

/-- The invariant that every step keeps (10_state.md R40, R28, R30; 60_exceptions.md R161): guest memory is in its
canonical form, no target is pending between cycles, and `fatal_kind` is the code of a kind exactly while the latch is
set. -/
abbrev State.Inv (s : State) : Prop :=
  s.mem.wf = true ∧ s.pending = none ∧
    ((s.fatal = false ∧ s.fatalKind = 0#2) ∨ (s.fatal = true ∧ (s.fatalKind = 1#2 ∨ s.fatalKind = 2#2)))

/-- The byte of guest memory at an address. -/
def byteOf (s : State) (a : Word) : Byte := s.mem.byteAt a.toNat

/-- Every register but `rd` reads as before. -/
def RegsExcept (rd : RegIdx) (s t : State) : Prop := ∀ j, j ≠ rd → readReg t j = readReg s j

/-- Every register reads as before. -/
def SameRegs (s t : State) : Prop := ∀ j, readReg t j = readReg s j

/-- Every byte of guest memory reads as before. -/
def SameMem (s t : State) : Prop := ∀ a : Word, byteOf t a = byteOf s a

/-- The latch, the record input, the reset input and the parameters are as before. -/
def SameSurroundings (s t : State) : Prop :=
  t.fatal = s.fatal ∧ t.fatalKind = s.fatalKind ∧ t.supply = s.supply ∧ t.resetReq = s.resetReq ∧
    t.params = s.params

/-- A jump that wrote the link register `rd` and committed `target`, with the given outputs, changed nothing else: the
link value is the pre-jump `pc + 4`, discarded for register 0.  (That the target does not stay pending is the spec's
decision D10 and stands in a statement of its own, `NoTargetSurvivesACycle`.) -/
def JumpDone (s t : State) (rd : RegIdx) (target : Word) (events : List PortEvent) : Prop :=
  t.pc = target ∧ readReg t rd = (if rd = 0 then 0#32 else s.pc + 4#32) ∧ RegsExcept rd s t ∧ SameMem s t ∧
    t.events = events ∧ SameSurroundings s t

/-- A load of `v` from one access into `rd` (discarded for register 0) changed nothing else but `pc`, which advanced by
4. -/
def LoadDone (s t : State) (rd : RegIdx) (ea : Word) (w : Width) (v : Word) : Prop :=
  readReg t rd = (if rd = 0 then 0#32 else v) ∧ RegsExcept rd s t ∧ SameMem s t ∧ t.pc = s.pc + 4#32 ∧
    t.pending = none ∧ t.events = [.memRead ea w] ∧ SameSurroundings s t

/-- A store of the low bytes of `data` to the bytes of one access changed no other byte, no register, and nothing else
but `pc`, which advanced by 4. -/
def StoreDone (s t : State) (ea : Word) (w : Width) (data : Word) : Prop :=
  (∀ k < w.bytes, byteOf t (ea + BitVec.ofNat 32 k) = data.extractLsb' (8 * k) 8) ∧
    (∀ a : Word, (∀ k < w.bytes, a ≠ ea + BitVec.ofNat 32 k) → byteOf t a = byteOf s a) ∧
    SameRegs s t ∧ t.pc = s.pc + 4#32 ∧ t.pending = none ∧
    t.events = [.memWrite ea ((List.range w.bytes).map fun k => data.extractLsb' (8 * k) 8)] ∧
    SameSurroundings s t

/-- A cycle of the given load completed as `LoadDone` says where the memory admits the access, and has no outcome where
it does not (20_memory.md R66). -/
def LoadRule (i : Instr) (s : State) (rd : RegIdx) (ea : Word) (w : Width) (v : Word) : Prop :=
  (memAdmits s ea w .read = true → ∃ t, exec i s = .next t ∧ LoadDone s t rd ea w v) ∧
    (memAdmits s ea w .read = false → exec i s = .fault (.accessNotAdmitted ea w .read))

/-- A cycle of the given store completed as `StoreDone` says where the memory admits the access, and has no outcome
where it does not (20_memory.md R66). -/
def StoreRule (i : Instr) (s : State) (ea : Word) (w : Width) (data : Word) : Prop :=
  (memAdmits s ea w .write = true → ∃ t, exec i s = .next t ∧ StoreDone s t ea w data) ∧
    (memAdmits s ea w .write = false → exec i s = .fault (.accessNotAdmitted ea w .write))

/-- A Fatal cycle committed nothing: registers, `pc` and memory are as before, nothing was emitted, no target is
pending, and the latch holds the kind (60_exceptions.md R162). -/
def FatalDone (s t : State) (kind : BitVec 2) : Prop :=
  t.fatal = true ∧ t.fatalKind = kind ∧ t.pc = s.pc ∧ SameRegs s t ∧ SameMem s t ∧ t.pending = none ∧
    t.events = [] ∧ t.supply = s.supply ∧ t.resetReq = s.resetReq ∧ t.params = s.params

/-- The instruction is one of the two that jump through a register. -/
def Instr.isJalr : Instr → Bool
  | .jalr .. | .rvJalr .. => true
  | .jal .. | .ld4 .. | .ld2 .. | .ld1 .. | .lh .. | .lb .. | .st4 .. | .st2 .. | .st1 .. | .rvJal ..
  | .rvLb .. | .rvLh .. | .rvLw .. | .rvLbu .. | .rvLhu .. | .rvSb .. | .rvSh .. | .rvSw .. => false

end Sys2Proof.Machine
end

