-- ==== Sys2Proof/Certificates/Slice0/Obligations.lean ====
section
/-! DEFINITION. The statements for the provers.  A clause that rests on a decision of the spec (92_eei_decisions.md) or
on a choice of the model names it, with its log entry. -/

open Sys2Proof Sys2Proof.Machine

/-! ### Decoding and encoding -/

/-- Decoding the encoding of a well-formed instruction gives it back (30_encoding.md R71 to R76, R90).  The layout is
the spec's decision (D2 to D5), the guest words are its general-knowledge annex (log 3). -/
def Obligations.DecodeOfEncode : Prop :=
  ∀ i : Instr, i.wellFormed = true → decode (encode i) = .ok i

/-- Every record either selects exactly one row of the dispatch map, and decodes to that row's instruction, or selects
none and is rejected: by its tag where that is 0 or 7, by its width where the tag is LD or ST (30_encoding.md R76, R78,
R79). -/
def Obligations.EveryRecordSelectsOneRowOrIsRejected : Prop :=
  ∀ d : Record,
    (∃ i, decodeRecord d = .ok i ∧ rowsSelected (.record d) = [i.mnemonic]) ∨
    (rowsSelected (.record d) = [] ∧ decodeRecord d = .error .reservedTag ∧ (recOp d = 0#3 ∨ recOp d = 7#3)) ∨
    (rowsSelected (.record d) = [] ∧ decodeRecord d = .error .unsupportedWidth ∧
      (recOp d = 3#3 ∨ recOp d = 4#3) ∧ recWidth d ≠ 1#3 ∧ recWidth d ≠ 2#3 ∧ recWidth d ≠ 4#3)

/-- The fields a helper does not read may hold anything and change nothing (30_encoding.md R77; D6, log 14): `width` and
`src2` for `jal`, `width` for `jalr`, `src2` for `ld`, `width` and `src2` for `lh` and `lb`, `rd` for `st`. -/
def Obligations.UnreadFieldsChangeNothing : Prop :=
  ∀ (w w' : BitVec 3) (rd rd' : RegIdx) (src2 src2' src1 : Word),
    decodeRecord (mkRecord 1 w rd src2 src1) = decodeRecord (mkRecord 1 w' rd src2' src1) ∧
    decodeRecord (mkRecord 2 w rd src2 src1) = decodeRecord (mkRecord 2 w' rd src2 src1) ∧
    decodeRecord (mkRecord 3 w rd src2 src1) = decodeRecord (mkRecord 3 w rd src2' src1) ∧
    decodeRecord (mkRecord 4 w rd src2 src1) = decodeRecord (mkRecord 4 w rd' src2 src1) ∧
    decodeRecord (mkRecord 5 w rd src2 src1) = decodeRecord (mkRecord 5 w' rd src2' src1) ∧
    decodeRecord (mkRecord 6 w rd src2 src1) = decodeRecord (mkRecord 6 w' rd src2' src1)

/-- A guest word that the front end maps is the encoding of the instruction it maps it to, so no bit of it is dropped;
and it selects exactly that instruction's row (30_encoding.md R88 to R90; log 3). -/
def Obligations.DecodedGuestWordReencodes : Prop :=
  ∀ (w : BitVec 32) (i : Instr), decodeGuest w = .ok i →
    i.wellFormed = true ∧ encode i = .guest w ∧ rowsSelected (.guest w) = [i.mnemonic]

/-- A guest word that the front end does not map selects no row, and one that selects no row is not mapped
(30_encoding.md R90, R91; log 3). -/
def Obligations.UnmappedGuestWordsAreThoseOfNoRow : Prop :=
  ∀ w : BitVec 32, decodeGuest w = .error .unmappedWord ↔ rowsSelected (.guest w) = []

/-- Words written out from the encodings of 30_encoding.md R76 and R90, and of 95_test_vectors.md, decode to the
instructions they stand for.  The record layout is the spec's decision (D2 to D5, log 15), the guest words are its
general-knowledge annex (log 3). -/
def Obligations.SampleWordsDecode : Prop :=
  decodeRecord 0x1010000000000000010#75 = .ok (.jal 1 0x10#32) ∧
  decodeRecord 0x2010000000480000021#75 = .ok (.jalr 1 0x80000021#32 4#32) ∧
  decodeRecord 0x3850000000080001000#75 = .ok (.ld4 5 0x80001000#32) ∧
  decodeRecord 0x5E50000000080001000#75 = .ok (.lh 5 0x80001000#32) ∧
  decodeRecord 0x4401234567880001000#75 = .ok (.st2 0x80001000#32 0x12345678#32) ∧
  decodeGuest 0x00C000EF#32 = .ok (.rvJal 1 12#21) ∧
  decodeGuest 0x003280E7#32 = .ok (.rvJalr 1 5 3#12) ∧
  decodeGuest 0x0025A603#32 = .ok (.rvLw 12 11 2#12) ∧
  decodeGuest 0x005581A3#32 = .ok (.rvSb 5 11 3#12)

/-! ### The step -/

/-- A cycle runs the record that is offered next, and consumes it: no reset asserted, the latch clear, the record one of
the ten instructions (40_cycle_and_primitives.md R100, 30_encoding.md R70; log 2). -/
def Obligations.StepRunsTheOfferedRecord : Prop :=
  ∀ (s : State) (d : Record) (rest : List Record) (i : Instr),
    s.resetReq = false → s.fatal = false → s.supply = .records (d :: rest) → decodeRecord d = .ok i →
    step s = exec i { s with supply := .records rest }

/-- With the front end, a cycle runs the guest word whose four bytes lie at `pc`, the lowest address in the low bits
(30_encoding.md R86, R87; D12, log 9; log 3). -/
def Obligations.StepRunsTheGuestWordAtPc : Prop :=
  ∀ (s : State) (i : Instr),
    s.resetReq = false → s.fatal = false → s.supply = .frontEnd → memAdmits s s.pc .word .read = true →
    decodeGuest (byteOf s (s.pc + 3#32) ++ byteOf s (s.pc + 2#32) ++ byteOf s (s.pc + 1#32) ++ byteOf s s.pc)
      = .ok i →
    step s = exec i s

/-- A step with the front end is a step with the one record the front end builds, in every outcome; an unmapped word is
the record `DI{op=0}` (30_encoding.md R86, R90, R91; log 3).  The one record stands in the model's record queue
(log 2). -/
def Obligations.FrontEndStepIsTheRecordStep : Prop :=
  ∀ (s s' : State) (w : BitVec 32),
    s.supply = .frontEnd → fetchWord s = .ok w →
    s' = { s with supply := .records [frontEndRecord w s] } →
    (∀ f, step s = .fault f ↔ step s' = .fault f) ∧
    (∀ r, step s = .refused r ↔ step s' = .refused r) ∧
    (∀ t, step s = .next t ↔ ∃ t', step s' = .next t' ∧ t = { t' with supply := .frontEnd })

/-- Every instruction does what the record it runs as does: for a guest word, the record of 30_encoding.md R90. -/
def Obligations.InstructionDoesWhatItsRecordDoes : Prop :=
  ∀ (i : Instr) (s : State), ∃ j, decodeRecord (recordOf i s) = .ok j ∧ exec i s = exec j s

/-- The state that stands for a loaded word runs that word's instruction in its very next step, at the same `pc` and
with the same registers (log 2, log 3). -/
def Obligations.LoadedWordRunsNext : Prop :=
  ∀ (s : State) (nbits w : Nat) (i : Instr),
    s.mem.wf = true → s.fatal = false → memAdmits s s.pc .word .read = true → decodeTableWord nbits w = some i →
    ∃ u, step (s.withFetchWord nbits w) = exec i u ∧ u.pc = s.pc ∧ SameRegs s u ∧ u.params = s.params

/-- When nothing is offered there is nothing to run (70_reset_and_hazards.md R203; log 2). -/
def Obligations.NoRecordNoStep : Prop :=
  ∀ s : State, s.resetReq = false → s.fatal = false → s.supply = .records [] → step s = .refused .noRecord

/-- A front-end fetch that the memory does not admit leaves the step without outcome (20_memory.md R66, 30_encoding.md
R87; log 6). -/
def Obligations.RefusedFetchHasNoOutcome : Prop :=
  ∀ s : State, s.resetReq = false → s.fatal = false → s.supply = .frontEnd →
    memAdmits s s.pc .word .read = false → step s = .fault (.fetchNotAdmitted s.pc)

/-! ### Jump and link -/

/-- `jal` (41_jump_and_link.md R120): the link register takes the pre-jump `pc + 4`, `pc` takes `pc + imm`, and nothing
else changes; register 0 discards the link.  That `pc` wraps and that no target is checked or masked are the spec's
decisions D9 and D11 (log 11, log 12); the outputs as a field are the model's (log 8). -/
def Obligations.JalLinksAndJumps : Prop :=
  ∀ (rd : RegIdx) (imm : Word) (s : State), s.fatal = false →
    ∃ t, exec (.jal rd imm) s = .next t ∧ JumpDone s t rd (s.pc + imm) []

/-- `jalr` (41_jump_and_link.md R121): `pc` takes `(base + off) & ~1`, the link register takes the pre-jump `pc + 4`, one
`skip` event leaves the block, and nothing else changes.  That the sum wraps and that bit 1 is not checked are the
spec's decisions D9 and D11 (log 11, log 12), the OPEN count and reason its D19, the outputs as a field the model's
(log 8). -/
def Obligations.JalrLinksJumpsAndSkips : Prop :=
  ∀ (rd : RegIdx) (base off : Word) (s : State), s.fatal = false →
    ∃ t, exec (.jalr rd base off) s = .next t ∧
      JumpDone s t rd ((base + off) &&& ~~~(1#32)) [.skip Config.jalrSkipN Config.jalrSkipReason]

/-- "Executing `jalr` with any operand combination: the resulting target address's least-significant bit is always 0"
(95_test_vectors.md E9; 10_state.md R27), for both forms. -/
def Obligations.JalrTargetIsEven : Prop :=
  ∀ (i : Instr) (s t : State), Instr.isJalr i = true → exec i s = .next t → t.pc.getLsbD 0 = false

/-- The guest `jal` (30_encoding.md R89, R90; log 3; D9, D11, log 11, log 12): as `jal`, with the 21-bit offset sign-extended. -/
def Obligations.GuestJalLinksAndJumps : Prop :=
  ∀ (rd : RegIdx) (off : BitVec 21) (s : State), s.fatal = false →
    ∃ t, exec (.rvJal rd off) s = .next t ∧ JumpDone s t rd (s.pc + off.signExtend 32) []

/-- The guest `jalr` (30_encoding.md R89, R90; log 3; D9, D11, log 11, log 12): as `jalr`, with the base register read before the link is
written, so that `rd = rs1` jumps to the old value plus the offset (70_reset_and_hazards.md R195). -/
def Obligations.GuestJalrUsesTheOldBase : Prop :=
  ∀ (rd rs1 : RegIdx) (off : BitVec 12) (s : State), s.fatal = false →
    ∃ t, exec (.rvJalr rd rs1 off) s = .next t ∧
      JumpDone s t rd ((readReg s rs1 + off.signExtend 32) &&& ~~~(1#32))
        [.skip Config.jalrSkipN Config.jalrSkipReason]

/-- After every step and every instruction no target is pending (10_state.md R28, R40; D10, log 7). -/
def Obligations.NoTargetSurvivesACycle : Prop :=
  (∀ s t : State, step s = .next t → t.pending = none) ∧
  (∀ (i : Instr) (s t : State), exec i s = .next t → t.pending = none)

/-! ### Loads (little-endian: D12, log 9; `pc + 4`: D8, log 10; addresses wrap: D9, log 11; no alignment check: D13,
log 13; the read of a discarded load is issued: D28, log 19) -/

/-- `ld.4` (42_loads.md R130): the four bytes from `ea` on. -/
def Obligations.Ld4LoadsTheWord : Prop :=
  ∀ (rd : RegIdx) (ea : Word) (s : State), s.fatal = false →
    LoadRule (.ld4 rd ea) s rd ea .word
      (byteOf s (ea + 3#32) ++ byteOf s (ea + 2#32) ++ byteOf s (ea + 1#32) ++ byteOf s ea)

/-- `ld.2` (42_loads.md R131): the two bytes from `ea` on, bits 31 to 16 zero. -/
def Obligations.Ld2ZeroExtends : Prop :=
  ∀ (rd : RegIdx) (ea : Word) (s : State), s.fatal = false →
    LoadRule (.ld2 rd ea) s rd ea .half (0#16 ++ byteOf s (ea + 1#32) ++ byteOf s ea)

/-- `ld.1` (42_loads.md R132): the byte at `ea`, bits 31 to 8 zero. -/
def Obligations.Ld1ZeroExtends : Prop :=
  ∀ (rd : RegIdx) (ea : Word) (s : State), s.fatal = false →
    LoadRule (.ld1 rd ea) s rd ea .byte (0#24 ++ byteOf s ea)

/-- `lh` (42_loads.md R133): the two bytes from `ea` on, bits 31 to 16 copies of bit 15. -/
def Obligations.LhSignExtends : Prop :=
  ∀ (rd : RegIdx) (ea : Word) (s : State), s.fatal = false →
    LoadRule (.lh rd ea) s rd ea .half ((byteOf s (ea + 1#32) ++ byteOf s ea).signExtend 32)

/-- `lb` (42_loads.md R134): the byte at `ea`, bits 31 to 8 copies of bit 7. -/
def Obligations.LbSignExtends : Prop :=
  ∀ (rd : RegIdx) (ea : Word) (s : State), s.fatal = false →
    LoadRule (.lb rd ea) s rd ea .byte ((byteOf s ea).signExtend 32)

/-- The guest loads (30_encoding.md R90; log 3): as `lb`, `lh`, `ld.4`, `ld.1` and `ld.2` at `x[rs1]` plus the
sign-extended offset, the base read before `rd` is written (70_reset_and_hazards.md R195). -/
def Obligations.GuestLoadsReadAtBasePlusOffset : Prop :=
  ∀ (rd rs1 : RegIdx) (off : BitVec 12) (ea : Word) (s : State), s.fatal = false →
    ea = readReg s rs1 + off.signExtend 32 →
    LoadRule (.rvLb rd rs1 off) s rd ea .byte ((byteOf s ea).signExtend 32) ∧
    LoadRule (.rvLh rd rs1 off) s rd ea .half ((byteOf s (ea + 1#32) ++ byteOf s ea).signExtend 32) ∧
    LoadRule (.rvLw rd rs1 off) s rd ea .word
      (byteOf s (ea + 3#32) ++ byteOf s (ea + 2#32) ++ byteOf s (ea + 1#32) ++ byteOf s ea) ∧
    LoadRule (.rvLbu rd rs1 off) s rd ea .byte (0#24 ++ byteOf s ea) ∧
    LoadRule (.rvLhu rd rs1 off) s rd ea .half (0#16 ++ byteOf s (ea + 1#32) ++ byteOf s ea)

/-! ### Stores (the same decisions; the address is `src1` and the data `src2`: D5, log 15) -/

/-- `st.4` (43_stores.md R140). -/
def Obligations.St4StoresTheWord : Prop :=
  ∀ (ea data : Word) (s : State), s.fatal = false → s.mem.wf = true →
    StoreRule (.st4 ea data) s ea .word data

/-- `st.2` (43_stores.md R141): the high half of the data is dropped. -/
def Obligations.St2StoresTheLowHalf : Prop :=
  ∀ (ea data : Word) (s : State), s.fatal = false → s.mem.wf = true →
    StoreRule (.st2 ea data) s ea .half data

/-- `st.1` (43_stores.md R142): only one byte changes. -/
def Obligations.St1StoresTheLowByte : Prop :=
  ∀ (ea data : Word) (s : State), s.fatal = false → s.mem.wf = true →
    StoreRule (.st1 ea data) s ea .byte data

/-- The guest stores (30_encoding.md R90; log 3): as `st.1`, `st.2` and `st.4` of `x[rs2]` at `x[rs1]` plus the
sign-extended offset. -/
def Obligations.GuestStoresWriteAtBasePlusOffset : Prop :=
  ∀ (rs2 rs1 : RegIdx) (off : BitVec 12) (ea : Word) (s : State), s.fatal = false → s.mem.wf = true →
    ea = readReg s rs1 + off.signExtend 32 →
    StoreRule (.rvSb rs2 rs1 off) s ea .byte (readReg s rs2) ∧
    StoreRule (.rvSh rs2 rs1 off) s ea .half (readReg s rs2) ∧
    StoreRule (.rvSw rs2 rs1 off) s ea .word (readReg s rs2)

/-- A load after a store to the same bytes, with nothing between them, reads what was stored (43_stores.md R144,
70_reset_and_hazards.md R199): `st.4` then `ld.4`. -/
def Obligations.StoreThenLoadReturnsTheWord : Prop :=
  ∀ (rd : RegIdx) (ea data : Word) (s : State), s.fatal = false → s.mem.wf = true →
    memAdmits s ea .word .write = true → memAdmits s ea .word .read = true →
    ∃ t u, exec (.st4 ea data) s = .next t ∧ exec (.ld4 rd ea) t = .next u ∧
      readReg u rd = if rd = 0 then 0#32 else data

/-- A narrower read of a stored word obeys the byte rule (20_memory.md R52, R67; little-endian, log 9). -/
def Obligations.NarrowReadsOfAWrittenWord : Prop :=
  ∀ (m : Memory) (a v : Word), m.wf = true →
    memRead (memWrite m a .word v) a .byte = (v.extractLsb' 0 8).setWidth 32 ∧
    memRead (memWrite m a .word v) (a + 1#32) .byte = (v.extractLsb' 8 8).setWidth 32 ∧
    memRead (memWrite m a .word v) a .half = (v.extractLsb' 0 16).setWidth 32 ∧
    memRead (memWrite m a .word v) (a + 2#32) .half = (v.extractLsb' 16 16).setWidth 32

/-- A stored instruction is fetched as stored: after a guest `sw` to the address of the next instruction, the front
end's fetch gives the stored word (20_memory.md R64, 70_reset_and_hazards.md R200; D25, log 18; log 3). -/
def Obligations.StoredWordIsFetched : Prop :=
  ∀ (rs2 rs1 : RegIdx) (off : BitVec 12) (s : State), s.fatal = false → s.mem.wf = true →
    readReg s rs1 + off.signExtend 32 = s.pc + 4#32 →
    memAdmits s (s.pc + 4#32) .word .write = true → memAdmits s (s.pc + 4#32) .word .read = true →
    ∃ t, exec (.rvSw rs2 rs1 off) s = .next t ∧ fetchWord t = .ok (readReg s rs2)

/-! ### Primitives -/

/-- `sign_extend` (40_cycle_and_primitives.md R103): bits 31 down to `8*width` equal bit `8*width-1` of the source, the
lower ones are the source's. -/
def Obligations.SignExtendCopiesTheTopBit : Prop :=
  ∀ (w : Width) (src : Word) (k : Nat), k < 32 →
    (signExtendTo src w).getLsbD k =
      if k < 8 * w.bytes then src.getLsbD k else src.getLsbD (8 * w.bytes - 1)

/-- `set_register` (40_cycle_and_primitives.md R104, 10_state.md R21): the register reads as the value, every other one as
before; a write to register 0 changes nothing, and it reads as 0. -/
def Obligations.RegisterWriteThenRead : Prop :=
  ∀ (i j : RegIdx) (v : Word) (s : State),
    (i ≠ 0 → readReg (setRegister i v s) i = v) ∧ (j ≠ i → readReg (setRegister i v s) j = readReg s j) ∧
    setRegister 0 v s = s ∧ readReg s 0 = 0#32

/-! ### The Fatal outcome -/

/-- `ld` with an unsupported width is Fatal(UnsupportedWidth) before any access and any write (42_loads.md R135; D15,
log 1). -/
def Obligations.LdWithUnsupportedWidthIsFatal : Prop :=
  ∀ (s : State) (d : Record) (rest : List Record),
    s.resetReq = false → s.fatal = false → s.supply = .records (d :: rest) →
    recOp d = 3#3 → recWidth d ≠ 1#3 → recWidth d ≠ 2#3 → recWidth d ≠ 4#3 →
    ∃ t, step s = .next t ∧ FatalDone s t 1#2

/-- `st` with an unsupported width is Fatal(UnsupportedWidth) and writes nothing (43_stores.md R143; D15, log 1). -/
def Obligations.StWithUnsupportedWidthIsFatal : Prop :=
  ∀ (s : State) (d : Record) (rest : List Record),
    s.resetReq = false → s.fatal = false → s.supply = .records (d :: rest) →
    recOp d = 4#3 → recWidth d ≠ 1#3 → recWidth d ≠ 2#3 → recWidth d ≠ 4#3 →
    ∃ t, step s = .next t ∧ FatalDone s t 1#2

/-- A record with a reserved tag is Fatal(UnreachableDecode), whatever its width (30_encoding.md R78, 60_exceptions.md
R164; D15, log 1), and so is a guest word the front end does not map (30_encoding.md R91; log 3). -/
def Obligations.UnknownInstructionIsFatal : Prop :=
  ∀ s : State, s.resetReq = false → s.fatal = false →
    (∀ (d : Record) (rest : List Record), s.supply = .records (d :: rest) → (recOp d = 0#3 ∨ recOp d = 7#3) →
      ∃ t, step s = .next t ∧ FatalDone s t 2#2) ∧
    (∀ w, s.supply = .frontEnd → fetchWord s = .ok w → rowsSelected (.guest w) = [] →
      ∃ t, step s = .next t ∧ FatalDone s t 2#2)

/-- Whenever a step sets the latch, it committed nothing and holds one of the two codes (60_exceptions.md R161, R162;
D15, log 1). -/
def Obligations.FatalCycleCommitsNothing : Prop :=
  ∀ s t : State, s.fatal = false → step s = .next t → t.fatal = true →
    FatalDone s t 1#2 ∨ FatalDone s t 2#2

/-- No instruction of the table is ever fatal (60_exceptions.md R161), and none runs while the latch is set
(40_cycle_and_primitives.md R100; D15, log 1). -/
def Obligations.NoInstructionIsFatal : Prop :=
  ∀ (i : Instr) (s : State),
    (s.fatal = true → exec i s = .fault (.fatalLatched s.fatalKind)) ∧
    (∀ t, exec i s = .next t → t.fatal = false ∧ t.fatalKind = s.fatalKind)

/-- Once the latch is set there is no step until reset is asserted, and reset clears it (60_exceptions.md R163; D15,
log 1). -/
def Obligations.FatalEndsOnlyByReset : Prop :=
  ∀ s : State, s.fatal = true →
    (s.resetReq = false → step s = .fault (.fatalLatched s.fatalKind)) ∧
    (∀ t, step s = .next t → s.resetReq = true ∧ t.fatal = false)

/-! ### Reset -/

/-- An asserted reset, in any state, gives the reset state of 10_state.md R36 to R38 with the OPEN values (log 4), and
leaves guest memory as it is (R39, 70_reset_and_hazards.md R190; D16). -/
def Obligations.ResetFromAnyState : Prop :=
  ∀ s : State, s.resetReq = true →
    ∃ t, step s = .next t ∧ t.pc = s.params.resetPc ∧ readReg t 0 = 0#32 ∧
      (∀ i : RegIdx, i ≠ 0 → s.params.resetGpr[i.val - 1]? = some (readReg t i)) ∧
      t.pending = none ∧ t.fatal = false ∧ t.fatalKind = 0#2 ∧ t.mem = s.mem ∧ t.events = [] ∧
      t.resetReq = false ∧ t.supply = s.supply ∧ t.params = s.params

/-- The state after reset meets the invariant, with the latch clear (10_state.md R38; the canonical form of memory is
the model's, log 5). -/
def Obligations.ResetStateMeetsTheInvariant : Prop :=
  State.reset.Inv ∧ State.reset.fatal = false ∧ readReg State.reset 0 = 0#32

/-! ### The whole machine -/

/-- Every step keeps the invariant (10_state.md R40): the memory's canonical form, no target pending between cycles,
and `fatal_kind` the code of a kind exactly while the latch is set (D10, log 7; D15, log 1; the canonical form is the
model's, log 5). -/
def Obligations.StepKeepsTheInvariant : Prop :=
  ∀ s t : State, s.Inv → step s = .next t → t.Inv

/-- A cycle changes at most one general register (10_state.md R40). -/
def Obligations.CycleWritesAtMostOneRegister : Prop :=
  ∀ s t : State, s.resetReq = false → step s = .next t → ∃ rd, RegsExcept rd s t

/-- A byte of memory that a step changes lies in a write request of that step and holds the byte requested
(10_state.md R40, 20_memory.md R50; the outputs as a field are the model's, log 8). -/
def Obligations.MemoryChangesOnlyByWriteRequests : Prop :=
  ∀ (s t : State) (a : Word), s.mem.wf = true → step s = .next t → byteOf t a ≠ byteOf s a →
    ∃ addr bytes k, PortEvent.memWrite addr bytes ∈ t.events ∧ bytes.length ≤ 4 ∧ k < bytes.length ∧
      a = addr + BitVec.ofNat 32 k ∧ bytes[k]? = some (byteOf t a)

/-- A cycle has at most one output: one memory request or one event (00_scope.md R7, 20_memory.md R50; log 8). -/
def Obligations.CycleHasAtMostOneOutput : Prop :=
  ∀ (s t : State), step s = .next t → t.events.length ≤ 1

/-- The `skip` event leaves the block in a `jalr` cycle and in no other (60_exceptions.md R170,
41_jump_and_link.md R121; log 8). -/
def Obligations.OnlyJalrSkips : Prop :=
  ∀ (i : Instr) (s t : State) (n reason : Nat), exec i s = .next t →
    (PortEvent.skip n reason ∈ t.events ↔
      (Instr.isJalr i = true ∧ n = Config.jalrSkipN ∧ reason = Config.jalrSkipReason))

/-- No step changes the parameters, and a step takes at most one record from the record input (00_scope.md R8, R11;
log 2, log 4, log 6). -/
def Obligations.StepKeepsParametersAndTakesOneRecord : Prop :=
  ∀ s t : State, step s = .next t →
    t.params = s.params ∧ (t.supply = s.supply ∨ ∃ d rest, s.supply = .records (d :: rest) ∧ t.supply = .records rest)

/-! ### The ports -/

/-- `value_of` (44_register_file_ports.md R153): the program counter by its name, a register by its, and `(0, false)`
for any other name; the exact matching is the spec's decision D17 (log 16). -/
def Obligations.ValueOfFindsExactlyTheNames : Prop :=
  ∀ (names : NameTable) (s : State), names.wf → s.fatal = false →
    valueOf names s names.pc = some (s.pc, true) ∧
    (∀ i : RegIdx, valueOf names s names.reg[i] = some (readReg s i, true)) ∧
    (∀ n, n ≠ names.pc → (∀ i : RegIdx, names.reg[i] ≠ n) → valueOf names s n = some (0#32, false))

/-- `index_of` and `name_of` are inverse to each other, and the program counter has no index
(44_register_file_ports.md R151, R152; log 16). -/
def Obligations.NamesAndIndicesCorrespond : Prop :=
  ∀ (names : NameTable) (s : State), names.wf → s.fatal = false →
    (∀ i : RegIdx, indexOf names s names.reg[i] = some (i, true) ∧ nameOf names s i = some names.reg[i]) ∧
    (∀ n i, indexOf names s n = some (i, true) → nameOf names s i = some n) ∧
    indexOf names s names.pc = some (0, false)

/-- The dump has 33 entries, the registers in index order and then the program counter, each with its value in signed
decimal (44_register_file_ports.md R155; D18, log 17). -/
def Obligations.DumpListsRegistersThenPc : Prop :=
  ∀ (names : NameTable) (s : State), s.fatal = false →
    ∃ es, dump names s = some es ∧ es.length = 33 ∧
      (∀ i : RegIdx, es[i.val]? = some ⟨names.reg[i], hex8 (readReg s i), (readReg s i).toInt⟩) ∧
      es[32]? = some ⟨names.pc, hex8 s.pc, s.pc.toInt⟩

/-- While the latch is set no port answers (44_register_file_ports.md R157; D27). -/
def Obligations.PortsSilentWhileFatal : Prop :=
  ∀ (names : NameTable) (P : EvalParams) (s : State) (n : String) (i : RegIdx) (a : Word), s.fatal = true →
    valueOf names s n = none ∧ indexOf names s n = none ∧ nameOf names s i = none ∧ readRegPort s i = none ∧
    dump names s = none ∧ debugRead s a = none ∧ exprPort names P s n = none

/-! ### The expression evaluator, a client of the ports (outside the block, 00_scope.md R5; log 20) -/

/-- A parenthesized range evaluates as its interior (60_exceptions.md R180; 95_test_vectors.md E1), whatever the ranks
and the literals are. -/
def Obligations.ParenthesesEvaluateAsTheirInterior : Prop :=
  ∀ (names : NameTable) (P : EvalParams) (s : State) (l r : Token) (ts : List Token),
    l.kind = .lparen → r.kind = .rparen → (depthAfter 0 ts).isSome = true →
    evalTokens names P s (l :: (ts ++ [r])) = evalTokens names P s ts

/-- A register token evaluates to the register's value and an unknown one fails (44_register_file_ports.md R154;
95_test_vectors.md E6); a dereferenced literal or register evaluates to the four bytes at its value
(60_exceptions.md R173; E5). -/
def Obligations.EvaluatorReadsThroughThePorts : Prop :=
  ∀ (names : NameTable) (P : EvalParams) (s : State) (lexeme : String), names.wf → s.fatal = false →
    (∀ i : RegIdx, evalTokens names P s [⟨.reg, names.reg[i]⟩] = .ok (readReg s i)) ∧
    (lexeme ≠ names.pc → (∀ i : RegIdx, names.reg[i] ≠ lexeme) →
      evalTokens names P s [⟨.reg, lexeme⟩] = .error .eval) ∧
    (∀ (star t : Token) (a : Word), star.kind = .deref → evalTokens names P s [t] = .ok a →
      memAdmits s a .word .read = true →
      evalTokens names P s [star, t] =
        .ok (byteOf s (a + 3#32) ++ byteOf s (a + 2#32) ++ byteOf s (a + 1#32) ++ byteOf s a))

/-- Each text of R175 is lexed as its own kind, so that `==` is no `=` and `<=` no `<`, and "A single `&` matches no
rule" (60_exceptions.md R174, R175; 95_test_vectors.md E7), for every table that is as the rules state it; that the
register and whitespace patterns shadow no other kind is DEDUCED, and that positions count from 0 a DESIGN CHOICE
(log 20). -/
def Obligations.SpellingsLexAsTheirKinds : Prop :=
  ∀ P : EvalParams, P.wf →
    (∀ k ∈ spelledKinds, ∀ sp, k.spelling = some sp →
      tokenize P.rules (String.ofList sp) = .ok [⟨k, String.ofList sp⟩]) ∧
    (∀ cs : List Char, cs.head? ≠ some '&' → tokenize P.rules (String.ofList ('&' :: cs)) = .error (.lex 0))

/-- A literal's text evaluates to the number it writes in its base, decimal digits or `0x` and hexadecimal ones, where a
word holds that number (60_exceptions.md R175, R179), for every table that is as the rules state it.  The spelling `0x`
is that of 95_test_vectors.md E5; above 2^32 - 1 the value is free (log 20). -/
def Obligations.LiteralsEvaluateByTheirBase : Prop :=
  ∀ (names : NameTable) (P : EvalParams) (s : State), P.wf → s.fatal = false →
    (∀ ds : List (Fin 10), ds ≠ [] → Nat.ofDigits 10 (ds.reverse.map Fin.val) < 2 ^ 32 →
      exprPort names P s (String.ofList (ds.map fun d => Nat.digitChar d.val)) =
        some (BitVec.ofNat 32 (Nat.ofDigits 10 (ds.reverse.map Fin.val)), true)) ∧
    (∀ ds : List (Fin 16), ds ≠ [] → Nat.ofDigits 16 (ds.reverse.map Fin.val) < 2 ^ 32 →
      exprPort names P s (String.ofList ('0' :: 'x' :: ds.map fun d => Nat.digitChar d.val)) =
        some (BitVec.ofNat 32 (Nat.ofDigits 16 (ds.reverse.map Fin.val)), true))

/-- A parenthesis-free range splits at its loosest binary operator, the rightmost of equals: one to whose left no binary
operator is looser and to whose right each is tighter.  Unary operators are tighter than it wherever they stand; and a
logical-or with none to its right is such an operator (60_exceptions.md R174, R178, R180; log 20). -/
def Obligations.UnaryBindsTightestAndOrLoosest : Prop :=
  ∀ (names : NameTable) (P : EvalParams) (s : State) (left right : List Token) (o : Token), P.wf →
    (∀ t ∈ left ++ right, t.kind ≠ .lparen ∧ t.kind ≠ .rparen) → left ++ right ≠ [] →
    o.kind.isOperator = true → o.kind.isUnary = false →
    ((∀ t ∈ left, t.kind.isOperator = true → t.kind.isUnary = false → P.rank t.kind ≤ P.rank o.kind) →
      (∀ t ∈ right, t.kind.isOperator = true → t.kind.isUnary = false → P.rank t.kind < P.rank o.kind) →
      evalTokens names P s (left ++ o :: right) =
        ((evalTokens names P s left).bind fun x =>
          (evalTokens names P s right).bind fun y => binaryOperator o.kind x y)) ∧
    (o.kind = .lor → (∀ t ∈ right, t.kind ≠ .lor) →
      evalTokens names P s (left ++ o :: right) =
        ((evalTokens names P s left).bind fun x =>
          (evalTokens names P s right).bind fun y => binaryOperator .lor x y))

/-- "`*-5` parses as dereference of negation" (60_exceptions.md R176; 95_test_vectors.md E13): a star, a sign and a value
give the four bytes at the signed value, where the read is admitted; with `-` its negation, with `+` itself (the
latter DEDUCED, log 20). -/
def Obligations.StarThenSignDereferencesTheSignedValue : Prop :=
  ∀ (names : NameTable) (P : EvalParams) (s : State) (star sign v : Token) (x a : Word), P.wf → s.fatal = false →
    star.kind = .star → evalTokens names P s [v] = .ok x →
    ((sign.kind = .minus ∧ a = -x) ∨ (sign.kind = .plus ∧ a = x)) → memAdmits s a .word .read = true →
    evalTokens names P s (reclassifyAll [star, sign, v]) =
      .ok (byteOf s (a + 3#32) ++ byteOf s (a + 2#32) ++ byteOf s (a + 1#32) ++ byteOf s a)

/-- `add32` (40_cycle_and_primitives.md R105): "32-bit addition with wraparound, no overflow signal". -/
def Obligations.Add32IsModulo2To32 : Prop :=
  ∀ a b : Word, (add32 a b).toNat = (a.toNat + b.toNat) % 2 ^ 32
end

