-- ==== Sys2Proof/Laws/Decode.lean ====
section
/-! SUPPORT. The fields of a record and of a guest word read back as they were written, and what an encoding leaves
under the opcode table's masks. -/

namespace Sys2Proof

section Record
variable (op width : BitVec 3) (rd : RegIdx) (src2 src1 : Word)

@[simp] theorem recOp_mkRecord : recOp (mkRecord op width rd src2 src1) = op := by
  ext i hi
  simp [recOp, mkRecord]
  grind
@[simp] theorem recWidth_mkRecord : recWidth (mkRecord op width rd src2 src1) = width := by
  ext i hi
  simp [recWidth, mkRecord]
  grind
@[simp] theorem recRd_mkRecord : recRd (mkRecord op width rd src2 src1) = rd := by
  have h : ∀ r : BitVec 5, (op ++ width ++ r ++ src2 ++ src1).extractLsb' 64 5 = r := by
    intro r
    ext i hi
    simp
    grind
  simp only [recRd, mkRecord]
  exact congrArg BitVec.toFin (h (BitVec.ofFin rd))
@[simp] theorem recSrc2_mkRecord : recSrc2 (mkRecord op width rd src2 src1) = src2 := by
  ext i hi
  simp [recSrc2, mkRecord]
  grind
@[simp] theorem recSrc1_mkRecord : recSrc1 (mkRecord op width rd src2 src1) = src1 := by
  ext i hi
  simp [recSrc1, mkRecord]
  grind

end Record

/-- A mask of ones over the high bits keeps just them. -/
theorem and_highMask {n m : Nat} (x : BitVec (n + m)) :
    x &&& (BitVec.allOnes n ++ 0#m) = x.extractLsb' m n ++ 0#m := by
  ext i hi
  simp only [BitVec.getElem_and, BitVec.getElem_append]
  split
  · simp
  · rename_i h
    have : m + (i - m) = i := by omega
    simp [this, BitVec.getLsbD_eq_getElem hi]

/-- A mask of ones over the low bits keeps just them. -/
theorem and_lowMask {n m : Nat} (x : BitVec (n + m)) :
    x &&& (0#n ++ BitVec.allOnes m) = 0#n ++ x.extractLsb' 0 m := by
  ext i hi
  simp only [BitVec.getElem_and, BitVec.getElem_append]
  split
  · simp [BitVec.getLsbD_eq_getElem hi]
  · simp

/-- The family tag alone lies under the mask of the rows that ignore the width (30_encoding.md R76). -/
theorem and_tagMask (d : Record) : d &&& 0x7000000000000000000#75 = mkRecord (recOp d) 0 0 0 0 := by
  have h : (0x7000000000000000000#75) = (BitVec.allOnes 3 ++ 0#72 : BitVec (3 + 72)) := by decide
  have h' : ∀ op, mkRecord op 0 0 0 0 = (op ++ 0#72 : BitVec (3 + 72)) := by decide
  rw [h, h']
  exact and_highMask (n := 3) (m := 72) d

/-- The high six bits of a record are the family tag and the width. -/
theorem extract_tag_width (d : Record) : d.extractLsb' 69 6 = recOp d ++ recWidth d := by
  ext i hi
  simp [recOp, recWidth]
  grind

/-- The family tag and the width lie under the mask of the rows of `ld` and `st` (30_encoding.md R76). -/
theorem and_widthMask (d : Record) :
    d &&& 0x7E00000000000000000#75 = mkRecord (recOp d) (recWidth d) 0 0 0 := by
  have h : (0x7E00000000000000000#75) = (BitVec.allOnes 6 ++ 0#69 : BitVec (6 + 69)) := by decide
  have h' : ∀ op w, mkRecord op w 0 0 0 = ((op ++ w) ++ 0#69 : BitVec (3 + 3 + 69)) := by decide
  rw [h, h', ← extract_tag_width]
  exact and_highMask (n := 6) (m := 69) d

/-! ### Guest words -/

/-- The opcode alone lies under the mask of the J row. -/
theorem and_opcodeMask (w : BitVec 32) : w &&& 0x0000007F#32 = encodeI 0 0 0 0 (gOpcode w) := by
  have h : (0x0000007F#32) = (0#25 ++ BitVec.allOnes 7 : BitVec (25 + 7)) := by decide
  have h' : ∀ o, encodeI 0 0 0 0 o = (0#25 ++ o : BitVec (25 + 7)) := by decide
  rw [h, h']
  exact and_lowMask (n := 25) (m := 7) w

/-- The opcode and `funct3` lie under the mask of the I and S rows. -/
theorem and_funct3Mask (w : BitVec 32) :
    w &&& 0x0000707F#32 = encodeI 0 0 (gFunct3 w) 0 (gOpcode w) := by
  have h : ∀ f o, encodeI 0 0 f 0 o = (o.setWidth 32 ||| (f.setWidth 32 <<< 12)) := by
    intro f
    revert f
    decide
  rw [h]
  ext i hi
  interval_cases i <;> simp [gFunct3, gOpcode]

section Guest
variable (off : BitVec 12) (offJ : BitVec 21) (rd rs1 rs2 : RegIdx) (funct3 : BitVec 3) (opcode : BitVec 7)

theorem toFin_eq_of_extract {n : Nat} {w : BitVec n} {k : Nat} {r : RegIdx}
    (h : w.extractLsb' k 5 = BitVec.ofFin (w := 5) r) : (w.extractLsb' k 5).toFin = r := by
  rw [h]

@[simp] theorem gOpcode_encodeJ : gOpcode (encodeJ offJ rd opcode) = opcode := by
  ext i hi
  simp [gOpcode, encodeJ]
  grind
@[simp] theorem gRd_encodeJ : gRd (encodeJ offJ rd opcode) = rd := by
  refine toFin_eq_of_extract ?_
  simp only [encodeJ]
  generalize BitVec.ofFin (w := 5) rd = r
  ext i hi
  simp
  grind
/-- The four pieces of the J format's offset. -/
theorem encodeJ_slices :
    (encodeJ offJ rd opcode).extractLsb' 31 1 = offJ.extractLsb' 20 1 ∧
    (encodeJ offJ rd opcode).extractLsb' 12 8 = offJ.extractLsb' 12 8 ∧
    (encodeJ offJ rd opcode).extractLsb' 20 1 = offJ.extractLsb' 11 1 ∧
    (encodeJ offJ rd opcode).extractLsb' 21 10 = offJ.extractLsb' 1 10 := by
  simp only [encodeJ]
  generalize BitVec.ofFin (w := 5) rd = r
  generalize offJ.extractLsb' 20 1 = a
  generalize offJ.extractLsb' 1 10 = b
  generalize offJ.extractLsb' 11 1 = c
  generalize offJ.extractLsb' 12 8 = d
  refine ⟨?_, ?_, ?_, ?_⟩ <;> ext i hi <;> simp <;> grind
theorem join_offJ (x : BitVec (1 + 8 + 1 + 10 + 1)) (h : x.getLsbD 0 = false) :
    x.extractLsb' 20 1 ++ x.extractLsb' 12 8 ++ x.extractLsb' 11 1 ++ x.extractLsb' 1 10 ++ 0#1 = x := by
  rw [BitVec.getLsbD_eq_getElem (by decide)] at h
  ext i hi
  simp only [BitVec.getElem_append, BitVec.getElem_extractLsb', BitVec.getElem_zero]
  grind
/-- The J format loses bit 0 of the offset alone. -/
theorem gImmJ_encodeJ (h : offJ.getLsbD 0 = false) : gImmJ (encodeJ offJ rd opcode) = offJ := by
  obtain ⟨h1, h2, h3, h4⟩ := encodeJ_slices offJ rd opcode
  rw [gImmJ, h1, h2, h3, h4]
  exact join_offJ offJ h

@[simp] theorem gOpcode_encodeI : gOpcode (encodeI off rs1 funct3 rd opcode) = opcode := by
  ext i hi
  simp [gOpcode, encodeI]
  grind
@[simp] theorem gFunct3_encodeI : gFunct3 (encodeI off rs1 funct3 rd opcode) = funct3 := by
  simp only [gFunct3, encodeI]
  generalize BitVec.ofFin (w := 5) rd = r
  ext i hi
  simp
  grind
@[simp] theorem gRd_encodeI : gRd (encodeI off rs1 funct3 rd opcode) = rd := by
  refine toFin_eq_of_extract ?_
  simp only [encodeI]
  generalize BitVec.ofFin (w := 5) rd = r
  ext i hi
  simp
  grind
@[simp] theorem gRs1_encodeI : gRs1 (encodeI off rs1 funct3 rd opcode) = rs1 := by
  refine toFin_eq_of_extract ?_
  simp only [encodeI]
  generalize BitVec.ofFin (w := 5) rd = r
  generalize BitVec.ofFin (w := 5) rs1 = r1
  ext i hi
  simp
  grind
@[simp] theorem gImmI_encodeI : gImmI (encodeI off rs1 funct3 rd opcode) = off := by
  simp only [gImmI, encodeI]
  generalize BitVec.ofFin (w := 5) rd = r
  generalize BitVec.ofFin (w := 5) rs1 = r1
  ext i hi
  simp
  grind

@[simp] theorem gOpcode_encodeS : gOpcode (encodeS off rs2 rs1 funct3 opcode) = opcode := by
  ext i hi
  simp [gOpcode, encodeS]
  grind
@[simp] theorem gFunct3_encodeS : gFunct3 (encodeS off rs2 rs1 funct3 opcode) = funct3 := by
  simp only [gFunct3, encodeS]
  ext i hi
  simp
  grind
@[simp] theorem gRs1_encodeS : gRs1 (encodeS off rs2 rs1 funct3 opcode) = rs1 := by
  refine toFin_eq_of_extract ?_
  simp only [encodeS]
  generalize BitVec.ofFin (w := 5) rs1 = r1
  ext i hi
  simp
  grind
@[simp] theorem gRs2_encodeS : gRs2 (encodeS off rs2 rs1 funct3 opcode) = rs2 := by
  refine toFin_eq_of_extract ?_
  simp only [encodeS]
  generalize BitVec.ofFin (w := 5) rs1 = r1
  generalize BitVec.ofFin (w := 5) rs2 = r2
  ext i hi
  simp
  grind
/-- The two pieces of the S format's offset. -/
theorem encodeS_slices :
    (encodeS off rs2 rs1 funct3 opcode).extractLsb' 25 7 = off.extractLsb' 5 7 ∧
    (encodeS off rs2 rs1 funct3 opcode).extractLsb' 7 5 = off.extractLsb' 0 5 := by
  simp only [encodeS]
  generalize BitVec.ofFin (w := 5) rs1 = r1
  generalize BitVec.ofFin (w := 5) rs2 = r2
  refine ⟨?_, ?_⟩ <;> ext i hi <;> simp <;> grind
theorem join_off : off.extractLsb' 5 7 ++ off.extractLsb' 0 5 = off := by
  ext i hi
  interval_cases i <;> grind
@[simp] theorem gImmS_encodeS : gImmS (encodeS off rs2 rs1 funct3 opcode) = off := by
  obtain ⟨h1, h2⟩ := encodeS_slices off rs1 rs2 funct3 opcode
  rw [gImmS, h1, h2]
  exact join_off off

end Guest

/-! ### The opcode table's rows -/

/-- The rows a record selects depend on its family tag and its width alone (30_encoding.md R76, R77). -/
theorem rowsSelected_record (d : Record) :
    rowsSelected (.record d) = rowsSelected (.record (mkRecord (recOp d) (recWidth d) 0 0 0)) := by
  have h : ∀ r ∈ recordRows,
      r.selectedBy d = r.selectedBy (mkRecord (recOp d) (recWidth d) 0 0 0) := by
    simp only [recordRows, List.forall_mem_cons, OpcodeRow.selectedBy, and_tagMask, and_widthMask, recOp_mkRecord,
      recWidth_mkRecord, List.not_mem_nil, false_implies, implies_true, and_self]
  simp only [rowsSelected, List.filter_congr h]

/-- The rows a guest word selects depend on its opcode and its `funct3` alone (30_encoding.md R90). -/
theorem rowsSelected_guest (w : BitVec 32) :
    rowsSelected (.guest w) = rowsSelected (.guest (encodeI 0 0 (gFunct3 w) 0 (gOpcode w))) := by
  have h : ∀ r ∈ guestRows, r.selectedBy w = r.selectedBy (encodeI 0 0 (gFunct3 w) 0 (gOpcode w)) := by
    simp only [guestRows, List.forall_mem_cons, OpcodeRow.selectedBy, and_opcodeMask, and_funct3Mask,
      gFunct3_encodeI, gOpcode_encodeI, List.not_mem_nil, false_implies, implies_true, and_self]
  simp only [rowsSelected, List.filter_congr h]

end Sys2Proof
end

