-- ==== Sys2Proof/Laws/Evaluator.lean ====
section
/-! SUPPORT. The expression evaluator: which rules can match where, the digits of a literal, where a main operator can
lie, and that fuel beyond the number of tokens changes nothing. -/

namespace Sys2Proof.Machine

/-! ### Lexical rules -/

theorem firstMatch_cons_of_takes {r : LexRule} {rs : List LexRule} {cs : List Char} {n : Nat}
    (h : r.takes cs = some (n + 1)) : firstMatch (r :: rs) cs = some (r.yields, n + 1) := by
  simp [firstMatch, h]

theorem firstMatch_cons_of_none {r : LexRule} {rs : List LexRule} {cs : List Char} (h : r.takes cs = none) :
    firstMatch (r :: rs) cs = firstMatch rs cs := by
  simp [firstMatch, h]

/-- Where no rule matches there is no match. -/
theorem firstMatch_eq_none {rs : List LexRule} {cs : List Char} (h : ∀ r ∈ rs, r.takes cs = none) :
    firstMatch rs cs = none := by
  induction rs with
  | nil => rfl
  | cons r rs ih =>
    rw [firstMatch_cons_of_none (h r List.mem_cons_self)]
    exact ih fun q hq => h q (List.mem_cons_of_mem r hq)

/-- A rule of the table is what matches first, if it matches and every rule that matches too yields the same or may not
precede it. -/
theorem firstMatch_eq_of_mem {rs : List LexRule} {cs : List Char} {q : LexRule} {n : Nat}
    (hp : rs.Pairwise fun r q => mayPrecede r q = true) (hq : q ∈ rs) (ht : q.takes cs = some (n + 1))
    (ho : ∀ r ∈ rs, r.takes cs = none ∨ (r.yields = q.yields ∧ r.takes cs = some (n + 1)) ∨
      mayPrecede r q = false) : firstMatch rs cs = some (q.yields, n + 1) := by
  induction rs with
  | nil => cases hq
  | cons r rs ih =>
    obtain ⟨hr, hp⟩ := List.pairwise_cons.mp hp
    rcases List.mem_cons.mp hq with rfl | hq
    · exact firstMatch_cons_of_takes ht
    · rcases ho r List.mem_cons_self with h | ⟨hy, h⟩ | h
      · rw [firstMatch_cons_of_none h]
        exact ih hp hq fun r hr => ho r (List.mem_cons_of_mem _ hr)
      · rw [firstMatch_cons_of_takes h, hy]
      · rw [hr q hq] at h
        cases h

/-- A text that is matched whole as one token is that token. -/
theorem tokenize_eq_singleton {rules : List LexRule} {cs : List Char} {k : TokenKind} (hc : cs ≠ [])
    (h : firstMatch rules cs = some (some k, cs.length)) :
    tokenize rules (String.ofList cs) = .ok [⟨k, String.ofList cs⟩] := by
  obtain ⟨c, cs, rfl⟩ := List.exists_cons_of_ne_nil hc
  simp [tokenize, tokenCapacity, tokenizeFrom, h]

/-- A text that no rule matches is a lex failure at its first character, position 0 (60_exceptions.md R175, log 20). -/
theorem tokenize_eq_error {rules : List LexRule} {cs : List Char} (hc : cs ≠ [])
    (h : firstMatch rules cs = none) : tokenize rules (String.ofList cs) = .error (.lex 0) := by
  obtain ⟨c, cs, rfl⟩ := List.exists_cons_of_ne_nil hc
  simp [tokenize, tokenizeFrom, h]

theorem beginsWith_self (sp : List Char) : beginsWith sp sp = true := by simp [beginsWith]

/-- In a table as the rules state it no rule but that of a text of R175 matches the text of a kind. -/
theorem takes_spelling {P : EvalParams} (hP : P.wf) {r : LexRule} (hr : r ∈ P.rules) {k : TokenKind}
    (hk : k ∈ spelledKinds) {sp : List Char} (hs : k.spelling = some sp) :
    r.takes sp = none ∨ ∃ l tp, r = .spelled l ∧ l.spelling = some tp ∧ beginsWith tp sp = true := by
  obtain ⟨-, -, ha, -⟩ := hP
  obtain ⟨c, cs, rfl, ho, hd⟩ : ∃ c cs, sp = c :: cs ∧ opensToken c = true ∧ isDigitOf 10 c = false := by
    simp only [spelledKinds, List.mem_cons, List.not_mem_nil, or_false] at hk
    rcases hk with rfl | rfl | rfl | rfl | rfl | rfl | rfl | rfl | rfl | rfl | rfl | rfl | rfl | rfl <;>
      cases hs <;> exact ⟨_, _, rfl, by decide, by decide⟩
  cases r with
  | whitespace f => exact .inl ((ha c cs ho).2 f hr)
  | register f => exact .inl ((ha c cs ho).1 f hr)
  | decimal => exact .inl (by simp [LexRule.takes, digitRun, hd])
  | hexadecimal =>
    have h : beginsWith ['0', 'x'] (c :: cs) = false := by
      simp only [beginsWith, List.length_cons, List.length_nil, List.take_succ_cons, List.cons.injEq,
        decide_eq_false_iff_not, not_and]
      intro e
      subst e
      exact absurd hd (by decide)
    exact .inl (by simp [LexRule.takes, hexDigits, h])
  | spelled l =>
    cases hl : l.spelling with
    | none => exact .inl (by simp [LexRule.takes, hl])
    | some tp =>
      cases hb : beginsWith tp (c :: cs) with
      | true => exact .inr ⟨l, tp, rfl, hl, hb⟩
      | false => exact .inl (by simp [LexRule.takes, hl, hb])

/-- Of two kinds whose texts match the same text, the shorter may not precede the longer (60_exceptions.md R174). -/
theorem spelled_may_not_shadow {k l : TokenKind} {sp tp : List Char} (hk : k ∈ spelledKinds)
    (hs : k.spelling = some sp) (hl : l.spelling = some tp) (hb : beginsWith tp sp = true) :
    l = k ∨ mayPrecede (.spelled l) (.spelled k) = false := by
  simp only [spelledKinds, List.mem_cons, List.not_mem_nil, or_false] at hk
  rcases hk with rfl | rfl | rfl | rfl | rfl | rfl | rfl | rfl | rfl | rfl | rfl | rfl | rfl | rfl <;>
    cases hs <;> cases l <;> cases hl <;> revert hb <;> decide

/-! ### Literals -/

/-- The digit characters are the digits. -/
theorem digitValue_digitChar : ∀ d : Fin 16, digitValue (Nat.digitChar d.val) = d.val := by decide

/-- The number the digits of a base write, one digit more. -/
theorem foldl_digits_concat (base : Nat) (ds : List Char) (d : Char) :
    (ds ++ [d]).foldl (fun n c => base * n + digitValue c) 0 =
      base * ds.foldl (fun n c => base * n + digitValue c) 0 + digitValue d := by
  simp

/-- A text of digits alone is one run of digits. -/
theorem digitRun_of_all {base : Nat} {cs : List Char} (hc : cs ≠ []) (h : ∀ c ∈ cs, isDigitOf base c = true) :
    digitRun base cs = some cs.length := by
  obtain ⟨c, cs, rfl⟩ := List.exists_cons_of_ne_nil hc
  rw [digitRun, List.takeWhile_eq_self_iff.mpr (by simpa using h)]
  rfl

/-- The digits of a base, written by their characters, are digits of that base. -/
theorem all_isDigitOf_digitChar {base : Nat} (hb : base ≤ 16) (ds : List (Fin base)) :
    (ds.map fun d => Nat.digitChar d.val).all (isDigitOf base) = true := by
  simp only [List.all_map, List.all_eq_true, Function.comp_apply, isDigitOf, decide_eq_true_eq]
  intro d _
  rw [digitValue_digitChar ⟨d.val, by omega⟩]
  exact d.isLt

/-- The value of digits is the number they write. -/
theorem digitsValue_digitChar {base : Nat} (hb : base ≤ 16) {ds : List (Fin base)} (h : ds ≠ []) :
    digitsValue base (ds.map fun d => Nat.digitChar d.val) = some (Nat.ofDigits base (ds.reverse.map Fin.val)) := by
  have hv : (ds.map fun d => Nat.digitChar d.val).foldl (fun n c => base * n + digitValue c) 0 =
      Nat.ofDigits base (ds.reverse.map Fin.val) := by
    clear h
    induction ds using List.reverseRecOn with
    | nil => rfl
    | append_singleton ds d ih =>
      rw [List.map_append, List.map_singleton, foldl_digits_concat, ih, digitValue_digitChar ⟨d.val, by omega⟩]
      simp [Nat.ofDigits_cons]
      omega
  rw [digitsValue, if_pos ⟨by simpa using h, all_isDigitOf_digitChar hb ds⟩, hv]

/-! ### Evaluation -/

theorem unaryOperator_of_not_unary (s : State) {k : TokenKind} (h : k.isUnary = false) :
    unaryOperator s k = none := by
  cases k <;> simp_all [TokenKind.isUnary, unaryOperator]

/-- A token that is no parenthesis leaves the depth alone (60_exceptions.md R177). -/
theorem depthAfter_cons (t : Token) (h : t.kind ≠ .lparen ∧ t.kind ≠ .rparen) (d : Nat) (ts : List Token) :
    depthAfter d (t :: ts) = depthAfter d ts := by
  rw [depthAfter.eq_def]
  cases hk : t.kind <;> simp_all

/-- A range without parentheses is balanced (60_exceptions.md R177). -/
theorem parenShape_of_no_paren {ts : List Token} (h : ∀ t ∈ ts, t.kind ≠ .lparen ∧ t.kind ≠ .rparen) :
    parenShape ts = .balanced := by
  have hd : depthAfter 0 ts = some 0 := by
    induction ts with
    | nil => rfl
    | cons t ts ih =>
      rw [depthAfter_cons t (h t List.mem_cons_self)]
      exact ih fun u hu => h u (List.mem_cons_of_mem t hu)
  rw [parenShape, if_neg, if_neg (by simp [hd])]
  rintro ⟨⟨h1, -⟩, -⟩
  cases ts with
  | nil => simp at h1
  | cons t ts => exact (h t List.mem_cons_self).1 (by simpa using h1)

/-! The scan for the main operator (60_exceptions.md R178), one token at a time at depth 0. -/

theorem mainOperatorFrom_nil (rank : TokenKind → Nat) (i : Nat) (best : Option (Nat × Nat)) :
    mainOperatorFrom rank i 0 best [] = best.map (·.1) := by
  simp [mainOperatorFrom]

theorem mainOperatorFrom_other (rank : TokenKind → Nat) (i : Nat) (best : Option (Nat × Nat)) {t : Token}
    (ts : List Token) (hp : t.kind ≠ .lparen ∧ t.kind ≠ .rparen) (h : t.kind.isOperator = false) :
    mainOperatorFrom rank i 0 best (t :: ts) = mainOperatorFrom rank (i + 1) 0 best ts := by
  rw [mainOperatorFrom.eq_def]
  cases hk : t.kind <;> simp_all [TokenKind.isOperator]

theorem mainOperatorFrom_operator (rank : TokenKind → Nat) (i : Nat) (best : Option (Nat × Nat)) {t : Token}
    (ts : List Token) (h : t.kind.isOperator = true) :
    mainOperatorFrom rank i 0 best (t :: ts) =
      if best.all (fun b => decide (b.2 ≤ rank t.kind)) = true then
        mainOperatorFrom rank (i + 1) 0 (some (i, rank t.kind)) ts
      else mainOperatorFrom rank (i + 1) 0 best ts := by
  conv => lhs; rw [mainOperatorFrom.eq_def]
  cases hk : t.kind <;> simp_all [TokenKind.isOperator]

/-- Operators no looser than `r` leave the best so far no looser than `r`. -/
theorem mainOperatorFrom_append (rank : TokenKind → Nat) {left : List Token} (rest : List Token) {r : Nat}
    (hp : ∀ t ∈ left, t.kind ≠ .lparen ∧ t.kind ≠ .rparen)
    (hr : ∀ t ∈ left, t.kind.isOperator = true → rank t.kind ≤ r) (i : Nat) {best : Option (Nat × Nat)}
    (hb : ∀ b ∈ best, b.2 ≤ r) :
    ∃ best', (∀ b ∈ best', b.2 ≤ r) ∧
      mainOperatorFrom rank i 0 best (left ++ rest) = mainOperatorFrom rank (i + left.length) 0 best' rest := by
  induction left generalizing i best with
  | nil => exact ⟨best, hb, rfl⟩
  | cons t ts ih =>
    have hp' := fun u hu => hp u (List.mem_cons_of_mem t hu)
    have hr' := fun u hu => hr u (List.mem_cons_of_mem t hu)
    rw [List.cons_append, List.length_cons, Nat.add_comm ts.length, ← Nat.add_assoc]
    cases ho : t.kind.isOperator with
    | false =>
      rw [mainOperatorFrom_other rank i best _ (hp t List.mem_cons_self) ho]
      exact ih hp' hr' (i + 1) hb
    | true =>
      rw [mainOperatorFrom_operator rank i best _ ho]
      split
      · refine ih hp' hr' (i + 1) fun b hm => ?_
        cases hm
        exact hr t List.mem_cons_self ho
      · exact ih hp' hr' (i + 1) hb

/-- Operators tighter than the best so far leave it the main operator. -/
theorem mainOperatorFrom_of_tighter (rank : TokenKind → Nat) {ts : List Token} {j r : Nat}
    (hp : ∀ t ∈ ts, t.kind ≠ .lparen ∧ t.kind ≠ .rparen)
    (hr : ∀ t ∈ ts, t.kind.isOperator = true → rank t.kind < r) (i : Nat) :
    mainOperatorFrom rank i 0 (some (j, r)) ts = some j := by
  induction ts generalizing i with
  | nil => exact mainOperatorFrom_nil rank i _
  | cons t ts ih =>
    have ih := ih (fun u hu => hp u (List.mem_cons_of_mem t hu)) (fun u hu => hr u (List.mem_cons_of_mem t hu))
    cases ho : t.kind.isOperator with
    | false => rw [mainOperatorFrom_other rank i _ _ (hp t List.mem_cons_self) ho, ih]
    | true =>
      have := hr t List.mem_cons_self ho
      rw [mainOperatorFrom_operator rank i _ _ ho, if_neg (by simpa using this), ih]

/-- A main operator lies inside its range (60_exceptions.md R178). -/
theorem mainOperatorFrom_lt (rank : TokenKind → Nat) (ts : List Token) {i d j : Nat} {best : Option (Nat × Nat)}
    (h : mainOperatorFrom rank i d best ts = some j) (hb : ∀ b ∈ best, b.1 < i) : j < i + ts.length := by
  induction ts generalizing i d best with
  | nil =>
    simp only [mainOperatorFrom] at h
    split at h
    · cases best with
      | none => simp at h
      | some b =>
        simp only [Option.map_some, Option.some.injEq] at h
        exact h ▸ by simpa using hb b rfl
    · cases h
  | cons t ts ih =>
    have hb' : ∀ b ∈ best, b.1 < i + 1 := fun b hm => Nat.lt_succ_of_lt (hb b hm)
    have hi : ∀ b ∈ some (i, rank t.kind), b.1 < i + 1 := fun b hm => by cases hm; exact Nat.lt_succ_self i
    rw [List.length_cons, Nat.add_comm ts.length, ← Nat.add_assoc]
    unfold mainOperatorFrom at h
    split at h
    · exact ih h hb'
    · split at h
      · cases h
      · exact ih h hb'
    · split at h
      · exact ih h hi
      · exact ih h hb'

/-- Fuel beyond the number of tokens changes nothing, one unit at a time. -/
theorem evalRange_succ (names : NameTable) (P : EvalParams) (s : State) (fuel : Nat) (ts : List Token)
    (h : ts.length ≤ fuel) : evalRange names P s (fuel + 1) ts = evalRange names P s fuel ts := by
  induction fuel generalizing ts with
  | zero =>
    cases ts with
    | nil => simp [evalRange]
    | cons t ts => simp at h
  | succ n ih =>
    match ts with
    | [] => simp [evalRange]
    | [t] => simp [evalRange]
    | t :: u :: ts =>
      simp only [List.length_cons] at h
      conv => lhs; unfold evalRange
      conv => rhs; unfold evalRange
      split
      · rfl
      · exact ih _ (by simp [innerTokens]; omega)
      · split
        · rfl
        · rename_i op ho
          have hl := mainOperatorFrom_lt _ _ ho (by simp)
          simp only [List.length_cons] at hl
          have e1 : evalRange names P s (n + 1) ((t :: u :: ts).drop (op + 1)) =
              evalRange names P s n ((t :: u :: ts).drop (op + 1)) := ih _ (by simp; omega)
          have e2 : evalRange names P s (n + 1) ((t :: u :: ts).take op) =
              evalRange names P s n ((t :: u :: ts).take op) := ih _ (by simp; omega)
          simp only [e1, e2]

/-- With enough fuel a range evaluates as by itself. -/
theorem evalRange_eq_evalTokens (names : NameTable) (P : EvalParams) (s : State) {fuel : Nat} {ts : List Token}
    (h : ts.length ≤ fuel) : evalRange names P s fuel ts = evalTokens names P s ts := by
  obtain ⟨k, rfl⟩ := Nat.exists_eq_add_of_le h
  induction k with
  | zero => rfl
  | succ k ih => rw [← Nat.add_assoc, evalRange_succ _ _ _ _ _ (by omega), ih (by omega)]

/-- A range without parentheses around it that has a binary main operator is split there (60_exceptions.md R180). -/
theorem evalTokens_of_binary (names : NameTable) (P : EvalParams) (s : State) {ts : List Token} {op : Nat}
    {o : Token} (hl : 2 ≤ ts.length) (hs : parenShape ts = .balanced) (hm : mainOperator P.rank ts = some op)
    (ho : ts[op]? = some o) (hu : unaryOperator s o.kind = none) :
    evalTokens names P s ts =
      ((evalTokens names P s (ts.take op)).bind fun a =>
        (evalTokens names P s (ts.drop (op + 1))).bind fun b => binaryOperator o.kind a b) := by
  match ts with
  | t :: u :: ts =>
    have hlt := mainOperatorFrom_lt _ _ hm (by simp)
    simp only [List.length_cons] at hlt
    have hk : (((t :: u :: ts).drop op).head?.map (·.kind)).getD .dec = o.kind := by simp [List.head?_drop, ho]
    rw [← evalRange_eq_evalTokens names P s (fuel := ts.length + 1) (ts := (t :: u :: ts).take op) (by simp; omega),
      ← evalRange_eq_evalTokens names P s (fuel := ts.length + 1) (ts := (t :: u :: ts).drop (op + 1))
        (by simp)]
    conv => lhs; unfold evalTokens; rw [List.length_cons, List.length_cons]; unfold evalRange
    simp only [hs, hm, hk, hu]

end Sys2Proof.Machine
end

