-- ==== Sys2Proof/Laws/Memory.lean ====
section
/-! SUPPORT. Guest memory: the canonical form is kept, a byte read after a write, and equal contents are equal data. -/

namespace Sys2Proof.Machine

namespace Memory

theorem wfFrom_cons {lo a : Nat} {v : Byte} {m : Memory} :
    wfFrom lo ((a, v) :: m) = true ↔ lo ≤ a ∧ a < 2 ^ 32 ∧ v ≠ unlistedByte ∧ wfFrom (a + 1) m = true := by
  simp [wfFrom, and_assoc]

theorem wfFrom_mono {lo lo' : Nat} {m : Memory} (h : wfFrom lo m = true) (hl : lo' ≤ lo) : wfFrom lo' m = true := by
  cases m with
  | nil => rfl
  | cons c m =>
    obtain ⟨a, v⟩ := c
    rw [wfFrom_cons] at h ⊢
    exact ⟨by omega, h.2⟩

/-- Below the keys of a canonical memory every byte is unlisted. -/
theorem byteAt_of_lt {lo a : Nat} {m : Memory} (h : wfFrom lo m = true) (ha : a < lo) :
    byteAt m a = unlistedByte := by
  induction m generalizing lo with
  | nil => rfl
  | cons c m ih =>
    obtain ⟨b, v⟩ := c
    rw [wfFrom_cons] at h
    have : a ≠ b := by omega
    simp [byteAt, this, ih h.2.2.2 (by omega)]

/-- Outside the address space every byte of a canonical memory is unlisted. -/
theorem byteAt_of_ge {lo a : Nat} {m : Memory} (h : wfFrom lo m = true) (ha : 2 ^ 32 ≤ a) :
    byteAt m a = unlistedByte := by
  induction m generalizing lo with
  | nil => rfl
  | cons c m ih =>
    obtain ⟨b, v⟩ := c
    rw [wfFrom_cons] at h
    have : a ≠ b := by omega
    simp [byteAt, this, ih h.2.2.2]

theorem wfFrom_setByte {lo a : Nat} {m : Memory} (v : Byte) (h : wfFrom lo m = true) (hl : lo ≤ a)
    (ha : a < 2 ^ 32) : wfFrom lo (setByte m a v) = true := by
  induction m generalizing lo with
  | nil =>
    unfold setByte
    split
    · rfl
    · exact wfFrom_cons.mpr ⟨hl, ha, ‹_›, rfl⟩
  | cons c m ih =>
    obtain ⟨b, u⟩ := c
    obtain ⟨h1, h2, h3, h4⟩ := wfFrom_cons.mp h
    unfold setByte
    split
    · split
      · exact h
      · exact wfFrom_cons.mpr ⟨hl, ha, ‹_›, wfFrom_cons.mpr ⟨by omega, h2, h3, h4⟩⟩
    · split
      · subst a
        split
        · exact wfFrom_mono h4 (by omega)
        · exact wfFrom_cons.mpr ⟨h1, h2, ‹_›, h4⟩
      · exact wfFrom_cons.mpr ⟨h1, h2, h3, ih h4 (by omega)⟩

/-- A byte write keeps the canonical form. -/
theorem wf_setByte {a : Nat} {m : Memory} (v : Byte) (h : wf m = true) (ha : a < 2 ^ 32) :
    wf (setByte m a v) = true :=
  wfFrom_setByte v h (Nat.zero_le a) ha

/-- Writing bytes keeps the canonical form. -/
theorem wf_setBytes {m : Memory} (h : wf m = true) (a : Word) (vs : List Byte) : wf (setBytes m a vs) = true := by
  induction vs generalizing m a with
  | nil => exact h
  | cons v vs ih => exact ih (wf_setByte v h a.isLt) (a + 1#32)

/-- `MemWrite` keeps the canonical form. -/
theorem wf_memWrite {m : Memory} (h : wf m = true) (a : Word) (w : Width) (v : Word) :
    wf (memWrite m a w v) = true :=
  wf_setBytes h a _

theorem byteAt_setByte_from {lo a : Nat} {m : Memory} (v : Byte) (h : wfFrom lo m = true) (b : Nat) :
    byteAt (setByte m a v) b = if b = a then v else byteAt m b := by
  induction m generalizing lo with
  | nil =>
    by_cases hv : v = unlistedByte <;> by_cases hb : b = a <;> simp [setByte, hv, hb, byteAt]
  | cons c m ih =>
    obtain ⟨k, u⟩ := c
    obtain ⟨-, -, -, h4⟩ := wfFrom_cons.mp h
    unfold setByte
    split
    · rename_i hlt
      split
      · rename_i hv
        by_cases hb : b = a
        · have : ¬ a = k := by omega
          subst hb
          simp [byteAt, this, hv, byteAt_of_lt h4 (show b < k + 1 by omega)]
        · simp [hb]
      · by_cases hb : b = a <;> simp [byteAt, hb]
    · split
      · subst a
        split
        · rename_i hv
          by_cases hb : b = k
          · subst hb
            simp [hv, byteAt_of_lt h4 (Nat.lt_succ_self b)]
          · simp [byteAt, hb]
        · by_cases hb : b = k <;> simp [byteAt, hb]
      · rename_i hne
        by_cases hb : b = k
        · have : ¬ k = a := fun e => hne e.symm
          simp [byteAt, hb, this]
        · simp [byteAt, hb, ih h4]

/-- A byte read after a byte write. -/
theorem byteAt_setByte {m : Memory} (h : wf m = true) (a b : Nat) (v : Byte) :
    byteAt (setByte m a v) b = if b = a then v else byteAt m b :=
  byteAt_setByte_from v h b

/-- Two canonical memories with equal contents are equal data. -/
theorem eq_of_byteAt_eq_from {lo : Nat} {m m' : Memory} (h : wfFrom lo m = true) (h' : wfFrom lo m' = true)
    (e : ∀ a, lo ≤ a → byteAt m a = byteAt m' a) : m = m' := by
  induction m generalizing lo m' with
  | nil =>
    cases m' with
    | nil => rfl
    | cons c m' =>
      obtain ⟨a, v⟩ := c
      obtain ⟨h1, -, h3, -⟩ := wfFrom_cons.mp h'
      exact absurd (by simpa [byteAt] using (e a h1).symm) h3
  | cons c m ih =>
    obtain ⟨a, v⟩ := c
    obtain ⟨h1, h2, h3, h4⟩ := wfFrom_cons.mp h
    cases m' with
    | nil => exact absurd (by simpa [byteAt] using e a h1) h3
    | cons c' m' =>
      obtain ⟨b, u⟩ := c'
      obtain ⟨k1, k2, k3, k4⟩ := wfFrom_cons.mp h'
      have hab : a = b := by
        by_contra hne
        rcases Nat.lt_or_gt_of_ne hne with hlt | hgt
        · have := e a h1
          rw [byteAt_of_lt (lo := b) (wfFrom_cons.mpr ⟨le_refl b, k2, k3, k4⟩) hlt] at this
          exact h3 (by simpa [byteAt] using this)
        · have := e b k1
          rw [byteAt_of_lt (lo := a) (wfFrom_cons.mpr ⟨le_refl a, h2, h3, h4⟩) hgt] at this
          exact k3 (by simpa [byteAt] using this.symm)
      subst hab
      have hv : v = u := by simpa [byteAt] using e a h1
      subst hv
      congr 1
      refine ih h4 k4 fun c hc => ?_
      have hne : c ≠ a := by omega
      simpa [byteAt, hne] using e c (by omega)

end Memory

/-! ### Runs of bytes -/

theorem add_ofNat_succ (a : Word) (k : Nat) : a + 1#32 + BitVec.ofNat 32 k = a + BitVec.ofNat 32 (k + 1) := by
  apply BitVec.eq_of_toNat_eq
  simp only [BitVec.toNat_add, BitVec.toNat_ofNat]
  omega

/-- A write of bytes leaves every other byte alone. -/
theorem byteAt_setBytes_of_ne {m : Memory} (h : m.wf = true) (a : Word) (vs : List Byte) {b : Nat}
    (hb : ∀ k < vs.length, b ≠ (a + BitVec.ofNat 32 k).toNat) : (m.setBytes a vs).byteAt b = m.byteAt b := by
  induction vs generalizing m a with
  | nil => rfl
  | cons v vs ih =>
    have h0 : b ≠ a.toNat := by simpa only [BitVec.add_zero] using hb 0 (Nat.succ_pos _)
    rw [Memory.setBytes, ih (Memory.wf_setByte v h a.isLt), Memory.byteAt_setByte h, if_neg h0]
    intro k hk
    rw [add_ofNat_succ]
    exact hb (k + 1) (Nat.succ_lt_succ hk)

/-- Byte `k` of a write of bytes lands at `a + k`. -/
theorem byteAt_setBytes {m : Memory} (h : m.wf = true) (a : Word) (vs : List Byte) (hl : vs.length ≤ 2 ^ 32)
    {k : Nat} (hk : k < vs.length) : (m.setBytes a vs).byteAt (a + BitVec.ofNat 32 k).toNat = vs[k] := by
  induction vs generalizing m a k with
  | nil => exact absurd hk (Nat.not_lt_zero k)
  | cons v vs ih =>
    simp only [List.length_cons] at hl hk
    have hw := Memory.wf_setByte v h a.isLt
    rw [Memory.setBytes]
    cases k with
    | zero =>
      rw [byteAt_setBytes_of_ne hw]
      · simp only [BitVec.add_zero, Memory.byteAt_setByte h, if_true, List.getElem_cons_zero]
      · intro j hj
        rw [add_ofNat_succ]
        simp only [BitVec.toNat_add, BitVec.toNat_ofNat, BitVec.add_zero]
        have := a.isLt
        omega
    | succ k =>
      rw [← add_ofNat_succ a k, ih hw (a + 1#32) (by omega) (by omega), List.getElem_cons_succ]

/-! ### Accesses of 1, 2 and 4 bytes -/

@[simp] theorem length_storeBytes (w : Width) (v : Word) : (storeBytes w v).length = w.bytes := by cases w <;> rfl

theorem bytes_pos (w : Width) : 0 < w.bytes := by cases w <;> decide
theorem bytes_le (w : Width) : w.bytes ≤ 4 := by cases w <;> decide

/-- Byte `k` of the stored value (20_memory.md R52). -/
theorem getElem_storeBytes (w : Width) (v : Word) {k : Nat} (hk : k < (storeBytes w v).length) :
    (storeBytes w v)[k] = v.extractLsb' (8 * k) 8 := by
  have hk' := hk
  simp only [length_storeBytes] at hk'
  cases w <;> simp only [Width.bytes] at hk'
  · obtain rfl : k = 0 := by omega
    rfl
  · obtain rfl | rfl : k = 0 ∨ k = 1 := by omega
    all_goals rfl
  · obtain rfl | rfl | rfl | rfl : k = 0 ∨ k = 1 ∨ k = 2 ∨ k = 3 := by omega
    all_goals rfl

theorem mem_accessAddrs {a x : Word} {w : Width} :
    x ∈ accessAddrs a w ↔ ∃ k < w.bytes, x = a + BitVec.ofNat 32 k := by
  simp [accessAddrs, eq_comm]

/-- Byte `k` of a write lands at `addr + k` (20_memory.md R52). -/
theorem byteAt_memWrite {m : Memory} (h : m.wf = true) (a : Word) (w : Width) (v : Word) {k : Nat}
    (hk : k < w.bytes) : (memWrite m a w v).byteAt (a + BitVec.ofNat 32 k).toNat = v.extractLsb' (8 * k) 8 := by
  have hb := bytes_le w
  rw [memWrite, byteAt_setBytes h a _ (by rw [length_storeBytes]; omega) (by simpa using hk), getElem_storeBytes]

/-- A write leaves every byte outside its access alone (40 R102). -/
theorem byteAt_memWrite_of_not_mem {m : Memory} (h : m.wf = true) (a : Word) (w : Width) (v : Word) {b : Nat}
    (hb : ∀ x ∈ accessAddrs a w, x.toNat ≠ b) : (memWrite m a w v).byteAt b = m.byteAt b := by
  refine byteAt_setBytes_of_ne h a _ fun k hk => ?_
  rw [length_storeBytes] at hk
  exact (hb _ (mem_accessAddrs.mpr ⟨k, hk, rfl⟩)).symm

/-- What a read after a write to the same place gives: the written bytes, the higher ones 0. -/
theorem memRead_memWrite {m : Memory} (h : m.wf = true) (a : Word) (w : Width) (v : Word) :
    memRead (memWrite m a w v) a w =
      match w with
      | .byte => (v.setWidth 8).setWidth 32
      | .half => (v.setWidth 16).setWidth 32
      | .word => v := by
  have e := fun (k : Nat) (hk : k < w.bytes) => byteAt_memWrite h a w v hk
  cases w
  · have e0 := e 0 (by decide)
    simp only [BitVec.add_zero] at e0
    simp only [memRead, e0]
    ext i hi
    simp
  · have e0 := e 0 (by decide)
    have e1 := e 1 (by decide)
    simp only [BitVec.add_zero] at e0
    simp only [memRead, e0, e1]
    ext i hi
    simp
    grind
  · have e0 := e 0 (by decide)
    have e1 := e 1 (by decide)
    have e2 := e 2 (by decide)
    have e3 := e 3 (by decide)
    simp only [BitVec.add_zero] at e0
    simp only [memRead, e0, e1, e2, e3]
    ext i hi
    simp
    grind

end Sys2Proof.Machine
end

