-- ==== Sys2Proof/Laws/State.lean ====
section
/-! SUPPORT. One lemma per field per update: what each operation on the state leaves in each field. -/

namespace Sys2Proof.Machine

variable (s : State)

/-! ### emit -/

@[simp] theorem emit_gpr (e : PortEvent) : (emit e s).gpr = s.gpr := rfl
@[simp] theorem emit_pc (e : PortEvent) : (emit e s).pc = s.pc := rfl
@[simp] theorem emit_pending (e : PortEvent) : (emit e s).pending = s.pending := rfl
@[simp] theorem emit_fatal (e : PortEvent) : (emit e s).fatal = s.fatal := rfl
@[simp] theorem emit_fatalKind (e : PortEvent) : (emit e s).fatalKind = s.fatalKind := rfl
@[simp] theorem emit_mem (e : PortEvent) : (emit e s).mem = s.mem := rfl
@[simp] theorem emit_events (e : PortEvent) : (emit e s).events = s.events ++ [e] := rfl
@[simp] theorem emit_supply (e : PortEvent) : (emit e s).supply = s.supply := rfl
@[simp] theorem emit_resetReq (e : PortEvent) : (emit e s).resetReq = s.resetReq := rfl
@[simp] theorem emit_params (e : PortEvent) : (emit e s).params = s.params := rfl
@[simp] theorem emit_readReg (e : PortEvent) (i : RegIdx) : readReg (emit e s) i = readReg s i := rfl
@[simp] theorem emit_memAdmits (e : PortEvent) (x : Word) (w : Width) (k : AccessKind) :
    memAdmits (emit e s) x w k = memAdmits s x w k := rfl

/-! ### commitJump -/

@[simp] theorem commitJump_gpr (t : Word) : (commitJump t s).gpr = s.gpr := rfl
@[simp] theorem commitJump_pc (t : Word) : (commitJump t s).pc = s.pc := rfl
@[simp] theorem commitJump_pending (t : Word) : (commitJump t s).pending = some t := rfl
@[simp] theorem commitJump_fatal (t : Word) : (commitJump t s).fatal = s.fatal := rfl
@[simp] theorem commitJump_fatalKind (t : Word) : (commitJump t s).fatalKind = s.fatalKind := rfl
@[simp] theorem commitJump_mem (t : Word) : (commitJump t s).mem = s.mem := rfl
@[simp] theorem commitJump_events (t : Word) : (commitJump t s).events = s.events := rfl
@[simp] theorem commitJump_supply (t : Word) : (commitJump t s).supply = s.supply := rfl
@[simp] theorem commitJump_resetReq (t : Word) : (commitJump t s).resetReq = s.resetReq := rfl
@[simp] theorem commitJump_params (t : Word) : (commitJump t s).params = s.params := rfl
@[simp] theorem commitJump_readReg (t : Word) (i : RegIdx) : readReg (commitJump t s) i = readReg s i := rfl
@[simp] theorem commitJump_memAdmits (t : Word) (x : Word) (w : Width) (k : AccessKind) :
    memAdmits (commitJump t s) x w k = memAdmits s x w k := rfl

/-! ### difftestSkip -/

@[simp] theorem difftestSkip_gpr (n : Nat) : (difftestSkip n s).gpr = s.gpr := rfl
@[simp] theorem difftestSkip_pc (n : Nat) : (difftestSkip n s).pc = s.pc := rfl
@[simp] theorem difftestSkip_pending (n : Nat) : (difftestSkip n s).pending = s.pending := rfl
@[simp] theorem difftestSkip_fatal (n : Nat) : (difftestSkip n s).fatal = s.fatal := rfl
@[simp] theorem difftestSkip_fatalKind (n : Nat) : (difftestSkip n s).fatalKind = s.fatalKind := rfl
@[simp] theorem difftestSkip_mem (n : Nat) : (difftestSkip n s).mem = s.mem := rfl
@[simp] theorem difftestSkip_events (n : Nat) : (difftestSkip n s).events = s.events ++ [.skip n Config.jalrSkipReason] := rfl
@[simp] theorem difftestSkip_supply (n : Nat) : (difftestSkip n s).supply = s.supply := rfl
@[simp] theorem difftestSkip_resetReq (n : Nat) : (difftestSkip n s).resetReq = s.resetReq := rfl
@[simp] theorem difftestSkip_params (n : Nat) : (difftestSkip n s).params = s.params := rfl
@[simp] theorem difftestSkip_readReg (n : Nat) (i : RegIdx) : readReg (difftestSkip n s) i = readReg s i := rfl
@[simp] theorem difftestSkip_memAdmits (n : Nat) (x : Word) (w : Width) (k : AccessKind) :
    memAdmits (difftestSkip n s) x w k = memAdmits s x w k := rfl

/-! ### beginCycle -/

@[simp] theorem beginCycle_gpr : (beginCycle s).gpr = s.gpr := rfl
@[simp] theorem beginCycle_pc : (beginCycle s).pc = s.pc := rfl
@[simp] theorem beginCycle_pending : (beginCycle s).pending = none := rfl
@[simp] theorem beginCycle_fatal : (beginCycle s).fatal = s.fatal := rfl
@[simp] theorem beginCycle_fatalKind : (beginCycle s).fatalKind = s.fatalKind := rfl
@[simp] theorem beginCycle_mem : (beginCycle s).mem = s.mem := rfl
@[simp] theorem beginCycle_events : (beginCycle s).events = [] := rfl
@[simp] theorem beginCycle_supply : (beginCycle s).supply = s.supply := rfl
@[simp] theorem beginCycle_resetReq : (beginCycle s).resetReq = s.resetReq := rfl
@[simp] theorem beginCycle_params : (beginCycle s).params = s.params := rfl
@[simp] theorem beginCycle_readReg (i : RegIdx) : readReg (beginCycle s) i = readReg s i := rfl
@[simp] theorem beginCycle_memAdmits (x : Word) (w : Width) (k : AccessKind) :
    memAdmits (beginCycle s) x w k = memAdmits s x w k := rfl

/-! ### takeFatal -/

@[simp] theorem takeFatal_gpr (k : FatalKind) : (takeFatal k s).gpr = s.gpr := rfl
@[simp] theorem takeFatal_pc (k : FatalKind) : (takeFatal k s).pc = s.pc := rfl
@[simp] theorem takeFatal_pending (k : FatalKind) : (takeFatal k s).pending = none := rfl
@[simp] theorem takeFatal_fatal (k : FatalKind) : (takeFatal k s).fatal = true := rfl
@[simp] theorem takeFatal_fatalKind (k : FatalKind) : (takeFatal k s).fatalKind = k.code := rfl
@[simp] theorem takeFatal_mem (k : FatalKind) : (takeFatal k s).mem = s.mem := rfl
@[simp] theorem takeFatal_events (k : FatalKind) : (takeFatal k s).events = [] := rfl
@[simp] theorem takeFatal_supply (k : FatalKind) : (takeFatal k s).supply = s.supply := rfl
@[simp] theorem takeFatal_resetReq (k : FatalKind) : (takeFatal k s).resetReq = s.resetReq := rfl
@[simp] theorem takeFatal_params (k : FatalKind) : (takeFatal k s).params = s.params := rfl
@[simp] theorem takeFatal_readReg (k : FatalKind) (i : RegIdx) : readReg (takeFatal k s) i = readReg s i := rfl
@[simp] theorem takeFatal_memAdmits (c : FatalKind) (x : Word) (w : Width) (k : AccessKind) :
    memAdmits (takeFatal c s) x w k = memAdmits s x w k := rfl

/-! ### resetBlock -/

@[simp] theorem resetBlock_gpr : (resetBlock s).gpr = s.params.resetGpr := rfl
@[simp] theorem resetBlock_pc : (resetBlock s).pc = s.params.resetPc := rfl
@[simp] theorem resetBlock_pending : (resetBlock s).pending = none := rfl
@[simp] theorem resetBlock_fatal : (resetBlock s).fatal = false := rfl
@[simp] theorem resetBlock_fatalKind : (resetBlock s).fatalKind = 0#2 := rfl
@[simp] theorem resetBlock_mem : (resetBlock s).mem = s.mem := rfl
@[simp] theorem resetBlock_events : (resetBlock s).events = [] := rfl
@[simp] theorem resetBlock_supply : (resetBlock s).supply = s.supply := rfl
@[simp] theorem resetBlock_resetReq : (resetBlock s).resetReq = false := rfl
@[simp] theorem resetBlock_params : (resetBlock s).params = s.params := rfl
@[simp] theorem resetBlock_memAdmits (x : Word) (w : Width) (k : AccessKind) :
    memAdmits (resetBlock s) x w k = memAdmits s x w k := rfl

/-! ### setRegister -/

@[simp] theorem setRegister_pc (i : RegIdx) (v : Word) : (setRegister i v s).pc = s.pc := by
  unfold setRegister; split <;> rfl
@[simp] theorem setRegister_pending (i : RegIdx) (v : Word) : (setRegister i v s).pending = s.pending := by
  unfold setRegister; split <;> rfl
@[simp] theorem setRegister_fatal (i : RegIdx) (v : Word) : (setRegister i v s).fatal = s.fatal := by
  unfold setRegister; split <;> rfl
@[simp] theorem setRegister_fatalKind (i : RegIdx) (v : Word) : (setRegister i v s).fatalKind = s.fatalKind := by
  unfold setRegister; split <;> rfl
@[simp] theorem setRegister_mem (i : RegIdx) (v : Word) : (setRegister i v s).mem = s.mem := by
  unfold setRegister; split <;> rfl
@[simp] theorem setRegister_events (i : RegIdx) (v : Word) : (setRegister i v s).events = s.events := by
  unfold setRegister; split <;> rfl
@[simp] theorem setRegister_supply (i : RegIdx) (v : Word) : (setRegister i v s).supply = s.supply := by
  unfold setRegister; split <;> rfl
@[simp] theorem setRegister_resetReq (i : RegIdx) (v : Word) : (setRegister i v s).resetReq = s.resetReq := by
  unfold setRegister; split <;> rfl
@[simp] theorem setRegister_params (i : RegIdx) (v : Word) : (setRegister i v s).params = s.params := by
  unfold setRegister; split <;> rfl
@[simp] theorem setRegister_memAdmits (i : RegIdx) (v : Word) (x : Word) (w : Width) (k : AccessKind) :
    memAdmits (setRegister i v s) x w k = memAdmits s x w k := by
  simp [memAdmits]

/-! ### endCycle -/

@[simp] theorem endCycle_gpr : (endCycle s).gpr = s.gpr := by unfold endCycle; split <;> rfl
@[simp] theorem endCycle_fatal : (endCycle s).fatal = s.fatal := by unfold endCycle; split <;> rfl
@[simp] theorem endCycle_fatalKind : (endCycle s).fatalKind = s.fatalKind := by unfold endCycle; split <;> rfl
@[simp] theorem endCycle_mem : (endCycle s).mem = s.mem := by unfold endCycle; split <;> rfl
@[simp] theorem endCycle_events : (endCycle s).events = s.events := by unfold endCycle; split <;> rfl
@[simp] theorem endCycle_supply : (endCycle s).supply = s.supply := by unfold endCycle; split <;> rfl
@[simp] theorem endCycle_resetReq : (endCycle s).resetReq = s.resetReq := by unfold endCycle; split <;> rfl
@[simp] theorem endCycle_params : (endCycle s).params = s.params := by unfold endCycle; split <;> rfl
@[simp] theorem endCycle_pending : (endCycle s).pending = none := by unfold endCycle; split <;> rfl
@[simp] theorem endCycle_readReg (i : RegIdx) : readReg (endCycle s) i = readReg s i := by
  unfold endCycle; split <;> rfl

/-- The program counter takes the pending target, or advances by 4 (10_state.md R26). -/
theorem endCycle_pc : (endCycle s).pc = s.pending.getD (add32 s.pc 4#32) := by
  unfold endCycle; split <;> simp [*]
@[simp] theorem endCycle_pc_of_target {t : Word} (h : s.pending = some t) : (endCycle s).pc = t := by
  simp [endCycle_pc, h]
@[simp] theorem endCycle_pc_of_none (h : s.pending = none) : (endCycle s).pc = add32 s.pc 4#32 := by
  simp [endCycle_pc, h]

/-! ### The register file -/

/-- Register 0 reads as 0 (10_state.md R21). -/
@[simp] theorem readReg_zero : readReg s 0 = 0#32 := rfl

theorem readReg_of_gpr_eq {s t : State} (h : t.gpr = s.gpr) (i : RegIdx) : readReg t i = readReg s i := by
  simp [readReg, h]

/-- A register read after a register write. -/
theorem readReg_setRegister (i j : RegIdx) (v : Word) :
    readReg (setRegister i v s) j = if j = i ∧ i ≠ 0 then v else readReg s j := by
  unfold setRegister readReg
  by_cases hi : i.val = 0
  · have : i = 0 := Fin.ext hi
    simp [this]
  · have hi' : i ≠ 0 := fun h => hi (by simp [h])
    by_cases hj : j.val = 0
    · have : ¬ j = i := fun h => hi (h ▸ hj)
      simp [hj, this]
    · by_cases hij : j = i
      · subst hij; simp [hi, hi']
      · have : ¬ i.val - 1 = j.val - 1 := fun h => hij (Fin.ext (by omega))
        simp [hi, hj, hij, this]

theorem readReg_setRegister_self {i : RegIdx} (v : Word) (h : i ≠ 0) : readReg (setRegister i v s) i = v := by
  simp [readReg_setRegister, h]
theorem readReg_setRegister_ne {i j : RegIdx} (v : Word) (h : j ≠ i) :
    readReg (setRegister i v s) j = readReg s j := by
  simp [readReg_setRegister, h]
/-- A write to register 0 is discarded (10_state.md R21). -/
@[simp] theorem setRegister_zero (v : Word) : setRegister 0 v s = s := rfl

end Sys2Proof.Machine
end

