-- ==== Sys2Proof/Laws/Ops.lean ====
section
/-! SUPPORT. What each shared operation can do, said once: the primitives, the helpers, the cycle, and the step. -/

namespace Sys2Proof.Machine

/-! ### Primitives -/

theorem loadMemory_of_admits {a : Word} {w : Width} {s : State} (h : memAdmits s a w .read = true) :
    loadMemory a w s = .ok (memRead s.mem a w, emit (.memRead a w) s) := by
  simp [loadMemory, h]

theorem loadMemory_of_refused {a : Word} {w : Width} {s : State} (h : memAdmits s a w .read = false) :
    loadMemory a w s = .error (.accessNotAdmitted a w .read) := by
  simp [loadMemory, h]

theorem storeMemory_of_admits {a v : Word} {w : Width} {s : State} (h : memAdmits s a w .write = true) :
    storeMemory a v w s = .ok (emit (.memWrite a (storeBytes w v)) { s with mem := memWrite s.mem a w v }) := by
  simp [storeMemory, h]

theorem storeMemory_of_refused {a v : Word} {w : Width} {s : State} (h : memAdmits s a w .write = false) :
    storeMemory a v w s = .error (.accessNotAdmitted a w .write) := by
  simp [storeMemory, h]

/-! ### Helpers -/

theorem helperLd_of_admits {w : Width} {rd : RegIdx} {ea : Word} {s : State}
    (h : memAdmits s ea w .read = true) :
    helperLd w rd ea s = .ok (setRegister rd (memRead s.mem ea w) (emit (.memRead ea w) s)) := by
  simp [helperLd, loadMemory_of_admits h]

theorem helperLd_of_refused {w : Width} {rd : RegIdx} {ea : Word} {s : State}
    (h : memAdmits s ea w .read = false) : helperLd w rd ea s = .error (.accessNotAdmitted ea w .read) := by
  simp [helperLd, loadMemory_of_refused h]

theorem helperLdSigned_of_admits {w : Width} {rd : RegIdx} {ea : Word} {s : State}
    (h : memAdmits s ea w .read = true) :
    helperLdSigned w rd ea s =
      .ok (setRegister rd (signExtendTo (memRead s.mem ea w) w) (emit (.memRead ea w) s)) := by
  simp [helperLdSigned, loadMemory_of_admits h]

theorem helperLdSigned_of_refused {w : Width} {rd : RegIdx} {ea : Word} {s : State}
    (h : memAdmits s ea w .read = false) :
    helperLdSigned w rd ea s = .error (.accessNotAdmitted ea w .read) := by
  simp [helperLdSigned, loadMemory_of_refused h]

/-! ### The cycle -/

/-- There is no cycle while the latch is set (40 R100). -/
theorem runCycle_of_fatal {f : State → Except Fault State} {s : State} (h : s.fatal = true) :
    runCycle f s = .fault (.fatalLatched s.fatalKind) := by
  simp [runCycle, h]

theorem runCycle_of_ok {f : State → Except Fault State} {s t : State} (h : s.fatal = false)
    (hf : f (beginCycle s) = .ok t) : runCycle f s = .next (endCycle t) := by
  simp [runCycle, h, hf]

theorem runCycle_of_error {f : State → Except Fault State} {s : State} {e : Fault} (h : s.fatal = false)
    (hf : f (beginCycle s) = .error e) : runCycle f s = .fault e := by
  simp [runCycle, h, hf]

/-- A cycle that completes ran its helper on an unlatched block. -/
theorem runCycle_eq_next {f : State → Except Fault State} {s t : State} (h : runCycle f s = .next t) :
    s.fatal = false ∧ ∃ u, f (beginCycle s) = .ok u ∧ t = endCycle u := by
  unfold runCycle at h
  split at h
  · cases h
  · split at h
    · cases h
      exact ⟨by simpa using ‹¬ s.fatal = true›, _, ‹_›, rfl⟩
    · cases h

/-! ### What a helper can do -/

/-- Everything a completed helper can do to the state of the cycle it runs in: at most one register, at most the
bytes of one access, at most one output, and the pending target. -/
inductive HelperEffect (s : State) : State → Prop where
  | jal (rd : RegIdx) (v t : Word) : HelperEffect s (commitJump t (setRegister rd v s))
  | jalr (rd : RegIdx) (v t : Word) (n : Nat) :
      HelperEffect s (difftestSkip n (commitJump t (setRegister rd v s)))
  | load (rd : RegIdx) (v ea : Word) (w : Width) (h : memAdmits s ea w .read = true) :
      HelperEffect s (setRegister rd v (emit (.memRead ea w) s))
  | store (ea v : Word) (w : Width) (h : memAdmits s ea w .write = true) :
      HelperEffect s (emit (.memWrite ea (storeBytes w v)) { s with mem := memWrite s.mem ea w v })

theorem helperJal_effect {rd : RegIdx} {imm : Word} {s t : State} (h : helperJal rd imm s = .ok t) :
    HelperEffect s t := by
  simp only [helperJal, Except.ok.injEq] at h
  subst h
  exact .jal ..

theorem helperJalr_effect {rd : RegIdx} {base off : Word} {s t : State} (h : helperJalr rd base off s = .ok t) :
    HelperEffect s t := by
  simp only [helperJalr, Except.ok.injEq] at h
  subst h
  exact .jalr ..

theorem helperLd_effect {w : Width} {rd : RegIdx} {ea : Word} {s t : State} (h : helperLd w rd ea s = .ok t) :
    HelperEffect s t := by
  cases ha : memAdmits s ea w .read
  · simp [helperLd_of_refused ha] at h
  · simp only [helperLd_of_admits ha, Except.ok.injEq] at h
    subst h
    exact .load _ _ _ _ ha

theorem helperLdSigned_effect {w : Width} {rd : RegIdx} {ea : Word} {s t : State}
    (h : helperLdSigned w rd ea s = .ok t) : HelperEffect s t := by
  cases ha : memAdmits s ea w .read
  · simp [helperLdSigned_of_refused ha] at h
  · simp only [helperLdSigned_of_admits ha, Except.ok.injEq] at h
    subst h
    exact .load _ _ _ _ ha

theorem helperSt_effect {w : Width} {ea v : Word} {s t : State} (h : helperSt w ea v s = .ok t) :
    HelperEffect s t := by
  unfold helperSt at h
  cases ha : memAdmits s ea w .write
  · simp [storeMemory_of_refused ha] at h
  · simp only [storeMemory_of_admits ha, Except.ok.injEq] at h
    subst h
    exact .store _ _ _ ha

/-! ### The two jump helpers in closed form -/

theorem helperJal_eq (rd : RegIdx) (imm : Word) (s : State) :
    helperJal rd imm s = .ok (commitJump (s.pc + imm) (setRegister rd (s.pc + 4#32) s)) := by
  simp [helperJal, add32]

theorem helperJalr_eq (rd : RegIdx) (base off : Word) (s : State) :
    helperJalr rd base off s =
      .ok (difftestSkip Config.jalrSkipN
        (commitJump ((base + off) &&& ~~~(1#32)) (setRegister rd (s.pc + 4#32) s))) := rfl

/-! ### Each instruction is one cycle around its helper -/

section Exec
variable (s : State) (rd rs1 rs2 : RegIdx) (ea data imm base x : Word) (off : BitVec 12) (offJ : BitVec 21)

theorem exec_jal : exec (.jal rd imm) s = runCycle (helperJal rd imm) s := rfl
theorem exec_jalr : exec (.jalr rd base x) s = runCycle (helperJalr rd base x) s := rfl
theorem exec_ld4 : exec (.ld4 rd ea) s = runCycle (helperLd .word rd ea) s := rfl
theorem exec_ld2 : exec (.ld2 rd ea) s = runCycle (helperLd .half rd ea) s := rfl
theorem exec_ld1 : exec (.ld1 rd ea) s = runCycle (helperLd .byte rd ea) s := rfl
theorem exec_lh : exec (.lh rd ea) s = runCycle (helperLdSigned .half rd ea) s := rfl
theorem exec_lb : exec (.lb rd ea) s = runCycle (helperLdSigned .byte rd ea) s := rfl
theorem exec_st4 : exec (.st4 ea data) s = runCycle (helperSt .word ea data) s := rfl
theorem exec_st2 : exec (.st2 ea data) s = runCycle (helperSt .half ea data) s := rfl
theorem exec_st1 : exec (.st1 ea data) s = runCycle (helperSt .byte ea data) s := rfl
theorem exec_rvJal : exec (.rvJal rd offJ) s = runCycle (helperJal rd (immJ offJ)) s := rfl
theorem exec_rvJalr : exec (.rvJalr rd rs1 off) s = runCycle (helperJalr rd (readReg s rs1) (imm12 off)) s := rfl
theorem exec_rvLb : exec (.rvLb rd rs1 off) s = runCycle (helperLdSigned .byte rd (guestEa s rs1 off)) s := rfl
theorem exec_rvLh : exec (.rvLh rd rs1 off) s = runCycle (helperLdSigned .half rd (guestEa s rs1 off)) s := rfl
theorem exec_rvLw : exec (.rvLw rd rs1 off) s = runCycle (helperLd .word rd (guestEa s rs1 off)) s := rfl
theorem exec_rvLbu : exec (.rvLbu rd rs1 off) s = runCycle (helperLd .byte rd (guestEa s rs1 off)) s := rfl
theorem exec_rvLhu : exec (.rvLhu rd rs1 off) s = runCycle (helperLd .half rd (guestEa s rs1 off)) s := rfl
theorem exec_rvSb :
    exec (.rvSb rs2 rs1 off) s = runCycle (helperSt .byte (guestEa s rs1 off) (readReg s rs2)) s := rfl
theorem exec_rvSh :
    exec (.rvSh rs2 rs1 off) s = runCycle (helperSt .half (guestEa s rs1 off) (readReg s rs2)) s := rfl
theorem exec_rvSw :
    exec (.rvSw rs2 rs1 off) s = runCycle (helperSt .word (guestEa s rs1 off) (readReg s rs2)) s := rfl

/-- The effective address of a guest load or store (30_encoding.md R90). -/
theorem guestEa_eq : guestEa s rs1 off = readReg s rs1 + off.signExtend 32 := rfl

end Exec

/-- Every instruction is one cycle around a helper. -/
theorem exec_eq_runCycle (i : Instr) (s : State) :
    ∃ f, exec i s = runCycle f s ∧ ∀ u t, f u = .ok t → HelperEffect u t := by
  cases i
  case jal => exact ⟨_, rfl, fun _ _ => helperJal_effect⟩
  case jalr => exact ⟨_, rfl, fun _ _ => helperJalr_effect⟩
  case ld4 => exact ⟨_, rfl, fun _ _ => helperLd_effect⟩
  case ld2 => exact ⟨_, rfl, fun _ _ => helperLd_effect⟩
  case ld1 => exact ⟨_, rfl, fun _ _ => helperLd_effect⟩
  case lh => exact ⟨_, rfl, fun _ _ => helperLdSigned_effect⟩
  case lb => exact ⟨_, rfl, fun _ _ => helperLdSigned_effect⟩
  case st4 => exact ⟨_, rfl, fun _ _ => helperSt_effect⟩
  case st2 => exact ⟨_, rfl, fun _ _ => helperSt_effect⟩
  case st1 => exact ⟨_, rfl, fun _ _ => helperSt_effect⟩
  case rvJal => exact ⟨_, rfl, fun _ _ => helperJal_effect⟩
  case rvJalr => exact ⟨_, rfl, fun _ _ => helperJalr_effect⟩
  case rvLb => exact ⟨_, rfl, fun _ _ => helperLdSigned_effect⟩
  case rvLh => exact ⟨_, rfl, fun _ _ => helperLdSigned_effect⟩
  case rvLw => exact ⟨_, rfl, fun _ _ => helperLd_effect⟩
  case rvLbu => exact ⟨_, rfl, fun _ _ => helperLd_effect⟩
  case rvLhu => exact ⟨_, rfl, fun _ _ => helperLd_effect⟩
  case rvSb => exact ⟨_, rfl, fun _ _ => helperSt_effect⟩
  case rvSh => exact ⟨_, rfl, fun _ _ => helperSt_effect⟩
  case rvSw => exact ⟨_, rfl, fun _ _ => helperSt_effect⟩

/-- Everything an instruction that completes can do. -/
theorem exec_effect {i : Instr} {s t : State} (h : exec i s = .next t) :
    s.fatal = false ∧ ∃ u, HelperEffect (beginCycle s) u ∧ t = endCycle u := by
  obtain ⟨f, hf, he⟩ := exec_eq_runCycle i s
  rw [hf] at h
  obtain ⟨hs, u, hu, rfl⟩ := runCycle_eq_next h
  exact ⟨hs, u, he _ _ hu, rfl⟩

/-! ### The step -/

/-- Everything a step that answers a next state can be: an asserted reset, a Fatal entry, or a cycle. -/
theorem step_eq_next {s t : State} (h : step s = .next t) :
    (s.resetReq = true ∧ t = resetBlock s) ∨
    (s.resetReq = false ∧ s.fatal = false ∧ ∃ k, nextOffer s = .fatal k ∧ t = takeFatal k s) ∨
    (s.resetReq = false ∧ s.fatal = false ∧ ∃ i u, nextOffer s = .run i u ∧ exec i u = .next t) := by
  unfold step at h
  split at h
  · cases h
    exact .inl ⟨‹_›, rfl⟩
  · have hr : s.resetReq = false := by simpa using ‹¬ s.resetReq = true›
    split at h
    · cases h
    · have hf : s.fatal = false := by simpa using ‹¬ s.fatal = true›
      split at h
      · exact .inr (.inr ⟨hr, hf, _, _, ‹_›, h⟩)
      · cases h
        exact .inr (.inl ⟨hr, hf, _, ‹_›, rfl⟩)
      · cases h
      · cases h

/-- An offered instruction runs in the same state, but for the record it consumes. -/
theorem nextOffer_run {s t : State} {i : Instr} (h : nextOffer s = .run i t) :
    (∃ d rest, s.supply = .records (d :: rest) ∧ decodeRecord d = .ok i ∧ t = { s with supply := .records rest }) ∨
    (s.supply = .frontEnd ∧ t = s ∧ ∃ w, fetchWord s = .ok w ∧ decodeGuest w = .ok i) := by
  unfold nextOffer at h
  split at h
  · cases h
  · split at h
    · cases h
      exact .inl ⟨_, _, ‹_›, ‹_›, rfl⟩
    · cases h
  · split at h
    · cases h
    · split at h
      · cases h
        exact .inr ⟨‹_›, rfl, _, ‹_›, ‹_›⟩
      · cases h

end Sys2Proof.Machine
end

