-- ==== Sys2Proof/Laws/PerInstr.lean ====
section
/-! SUPPORT. The family EncodeSelectsRow: an instruction's encoding selects its own row of spec/opcode_table.json and no
other (30_encoding.md R76, R90). -/

namespace Sys2Proof

/-- The encoding selects exactly the instruction's row. -/
def Laws.EncodeSelectsRow.Statement (i : Instr) : Prop :=
  i.wellFormed = true → rowsSelected (encode i) = [i.mnemonic]

/-- A record of the given tag and width selects the rows of the record with nothing else set. -/
theorem rowsSelected_mkRecord (op w : BitVec 3) (rd : RegIdx) (src2 src1 : Word) :
    rowsSelected (.record (mkRecord op w rd src2 src1)) = rowsSelected (.record (mkRecord op w 0 0 0)) := by
  rw [rowsSelected_record, recOp_mkRecord, recWidth_mkRecord]

theorem rowsSelected_encodeI (off : BitVec 12) (rs1 rd : RegIdx) (f : BitVec 3) (o : BitVec 7) :
    rowsSelected (.guest (encodeI off rs1 f rd o)) = rowsSelected (.guest (encodeI 0 0 f 0 o)) := by
  rw [rowsSelected_guest, gFunct3_encodeI, gOpcode_encodeI]

theorem rowsSelected_encodeS (off : BitVec 12) (rs1 rs2 : RegIdx) (f : BitVec 3) (o : BitVec 7) :
    rowsSelected (.guest (encodeS off rs2 rs1 f o)) = rowsSelected (.guest (encodeI 0 0 f 0 o)) := by
  rw [rowsSelected_guest, gFunct3_encodeS, gOpcode_encodeS]

/-- The opcode of the guest `jal` selects its row whatever stands in the bits where other formats have `funct3`. -/
theorem rowsSelected_encodeJ (off : BitVec 21) (rd : RegIdx) :
    rowsSelected (.guest (encodeJ off rd 0b1101111#7)) = ["rv32.jal"] := by
  have h : ∀ f, rowsSelected (.guest (encodeI 0 0 f 0 0b1101111#7)) = ["rv32.jal"] := by decide
  rw [rowsSelected_guest, gOpcode_encodeJ]
  exact h _

namespace Laws.EncodeSelectsRow

theorem jal (rd : RegIdx) (imm : Word) : Statement (.jal rd imm) := fun _ => rowsSelected_mkRecord ..
theorem jalr (rd : RegIdx) (base off : Word) : Statement (.jalr rd base off) := fun _ => rowsSelected_mkRecord ..
theorem ld4 (rd : RegIdx) (ea : Word) : Statement (.ld4 rd ea) := fun _ => rowsSelected_mkRecord ..
theorem ld2 (rd : RegIdx) (ea : Word) : Statement (.ld2 rd ea) := fun _ => rowsSelected_mkRecord ..
theorem ld1 (rd : RegIdx) (ea : Word) : Statement (.ld1 rd ea) := fun _ => rowsSelected_mkRecord ..
theorem lh (rd : RegIdx) (ea : Word) : Statement (.lh rd ea) := fun _ => rowsSelected_mkRecord ..
theorem lb (rd : RegIdx) (ea : Word) : Statement (.lb rd ea) := fun _ => rowsSelected_mkRecord ..
theorem st4 (ea data : Word) : Statement (.st4 ea data) := fun _ => rowsSelected_mkRecord ..
theorem st2 (ea data : Word) : Statement (.st2 ea data) := fun _ => rowsSelected_mkRecord ..
theorem st1 (ea data : Word) : Statement (.st1 ea data) := fun _ => rowsSelected_mkRecord ..
theorem rvJal (rd : RegIdx) (off : BitVec 21) : Statement (.rvJal rd off) := fun _ => rowsSelected_encodeJ ..
theorem rvJalr (rd rs1 : RegIdx) (off : BitVec 12) : Statement (.rvJalr rd rs1 off) := fun _ => rowsSelected_encodeI ..
theorem rvLb (rd rs1 : RegIdx) (off : BitVec 12) : Statement (.rvLb rd rs1 off) := fun _ => rowsSelected_encodeI ..
theorem rvLh (rd rs1 : RegIdx) (off : BitVec 12) : Statement (.rvLh rd rs1 off) := fun _ => rowsSelected_encodeI ..
theorem rvLw (rd rs1 : RegIdx) (off : BitVec 12) : Statement (.rvLw rd rs1 off) := fun _ => rowsSelected_encodeI ..
theorem rvLbu (rd rs1 : RegIdx) (off : BitVec 12) : Statement (.rvLbu rd rs1 off) := fun _ => rowsSelected_encodeI ..
theorem rvLhu (rd rs1 : RegIdx) (off : BitVec 12) : Statement (.rvLhu rd rs1 off) := fun _ => rowsSelected_encodeI ..
theorem rvSb (rs2 rs1 : RegIdx) (off : BitVec 12) : Statement (.rvSb rs2 rs1 off) := fun _ => rowsSelected_encodeS ..
theorem rvSh (rs2 rs1 : RegIdx) (off : BitVec 12) : Statement (.rvSh rs2 rs1 off) := fun _ => rowsSelected_encodeS ..
theorem rvSw (rs2 rs1 : RegIdx) (off : BitVec 12) : Statement (.rvSw rs2 rs1 off) := fun _ => rowsSelected_encodeS ..

end Laws.EncodeSelectsRow

end Sys2Proof
end

