-- ==== Sys2Proof/Tests/Slice0.lean ====
section
/-! SUPPORT. Tests of single steps, of the decoder and of the ports, and a witness for the hypotheses of every
statement.  Expected results are those of spec/95_test_vectors.md (sections 1 to 3) and of the encoding tables of
30_encoding.md, never the model's own answers.  `A` is the address 0x80001000 there. -/

namespace Sys2Proof.Tests

open Sys2Proof Sys2Proof.Machine

/-! ### Helpers -/

/-- The start state of 95_test_vectors.md section 2, with one record offered. -/
def offered (d : Record) : State := { State.reset with supply := .records [d] }

/-- The bytes of 95_test_vectors.md section 2.4. -/
def loadBytes : Memory :=
  [(0x80001000, 0x80#8), (0x80001001, 0xFF#8), (0x80001002, 0x34#8), (0x80001003, 0x92#8), (0x80001004, 0x7F#8)]

/-- The bytes of 95_test_vectors.md section 2.6. -/
def storeStart : Memory :=
  [(0x80001000, 0xAA#8), (0x80001001, 0xBB#8), (0x80001002, 0xCC#8), (0x80001003, 0xDD#8), (0x80001004, 0xEE#8)]

/-- A state that refuses every access. -/
def refusing : State :=
  { State.reset with
    params := { Params.initial with
      refused := [⟨0, 0xFFFFFFFF#32, .word, .read⟩, ⟨0, 0xFFFFFFFF#32, .half, .read⟩,
        ⟨0, 0xFFFFFFFF#32, .byte, .read⟩, ⟨0, 0xFFFFFFFF#32, .word, .write⟩,
        ⟨0, 0xFFFFFFFF#32, .half, .write⟩, ⟨0, 0xFFFFFFFF#32, .byte, .write⟩] } }

/-- The state with the given registers written. -/
def withRegs (rs : List (RegIdx × Word)) (s : State) : State := rs.foldl (fun s r => setRegister r.1 r.2 s) s

/-- The property of the next state. -/
def nextIs (o : Host.Outcome State Fault Refusal) (p : State → Bool) : Bool :=
  match o with
  | .next t => p t
  | .fault _ => false
  | .refused _ => false

/-- The state after a step over a guest word at `pc`. -/
def guestStep (w : Nat) (s : State) : Host.Outcome State Fault Refusal := step (s.withFetchWord 32 w)

/-- The bytes `A .. A+4`. -/
def bytesAtA (s : State) : List Byte := (List.range 5).map fun k => s.mem.byteAt (0x80001000 + k)

/-! ### Well-formedness -/

/-- An odd jump offset has no encoding (30_encoding.md R89); the smallest and the even one next to it. -/
theorem test_wellFormed_refuses_odd_jump_offset :
    (Instr.rvJal 0 1#21).wellFormed = false ∧ (Instr.rvJal 0 0x1FFFFF#21).wellFormed = false ∧
      (Instr.rvJal 0 2#21).wellFormed = true := by decide

/-! ### Decoding: words written out from 30_encoding.md R71, R76, R90 and 95_test_vectors.md -/

/-- op 001 width 000 rd 00001 src2 0 src1 0x10, and op 010 with src2 = 4 (vectors 2.2, 2.3). -/
theorem test_decode_jump_records :
    decodeRecord 0x1010000000000000010#75 = .ok (.jal 1 0x10#32) ∧
    decodeRecord 0x1E1FFFFFFFF00000010#75 = .ok (.jal 1 0x10#32) ∧
    decodeRecord 0x2010000000480000021#75 = .ok (.jalr 1 0x80000021#32 4#32) ∧
    decodeRecord 0x207FFFFFFFC80000010#75 = .ok (.jalr 7 0x80000010#32 0xFFFFFFFC#32) := by decide

/-- Vectors 2.4 and 2.5. -/
theorem test_decode_load_records :
    decodeRecord 0x3850000000080001000#75 = .ok (.ld4 5 0x80001000#32) ∧
    decodeRecord 0x3450000000080001000#75 = .ok (.ld2 5 0x80001000#32) ∧
    decodeRecord 0x3250000000080001000#75 = .ok (.ld1 5 0x80001000#32) ∧
    decodeRecord 0x5E50000000080001000#75 = .ok (.lh 5 0x80001000#32) ∧
    decodeRecord 0x6E3DEADBEEFFFFFFFFF#75 = .ok (.lb 3 0xFFFFFFFF#32) := by decide

/-- Vectors 2.6. -/
theorem test_decode_store_records :
    decodeRecord 0x49F0000000080001000#75 = .ok (.st4 0x80001000#32 0#32) ∧
    decodeRecord 0x440FFFF800180001003#75 = .ok (.st2 0x80001003#32 0xFFFF8001#32) ∧
    decodeRecord 0x4201234567880001001#75 = .ok (.st1 0x80001001#32 0x12345678#32) := by decide

/-- Vectors 2.4, 2.6 and 2.7: every unsupported width, both reserved tags, and the tag before the width. -/
theorem test_decode_rejects_records :
    ([0x3050000000080001000#75, 0x3650000000080001000#75, 0x3A50000000080001000#75, 0x3C50000000080001000#75,
      0x3E50000000080001000#75, 0x4001234567880001000#75, 0x4601234567880001000#75, 0x4A01234567880001000#75,
      0x4C01234567880001000#75, 0x4E01234567880001000#75].all
        fun d => decide (decodeRecord d = .error .unsupportedWidth)) = true ∧
    decodeRecord 0#75 = .error .reservedTag ∧ decodeRecord 0x7811234567880001000#75 = .error .reservedTag ∧
    decodeRecord 0x0610000000000000000#75 = .error .reservedTag := by decide

/-- Programs P1 and P3; the last word is `jal x1, -8`: imm[20] 1, imm[10:1] 1111111100, imm[11] 1, imm[19:12] all ones
(30_encoding.md R90). -/
theorem test_decode_guest_jumps :
    decodeGuest 0x00C000EF#32 = .ok (.rvJal 1 12#21) ∧ decodeGuest 0x0000006F#32 = .ok (.rvJal 0 0#21) ∧
    decodeGuest 0x003280E7#32 = .ok (.rvJalr 1 5 3#12) ∧ decodeGuest 0x00008067#32 = .ok (.rvJalr 0 1 0#12) ∧
    decodeGuest 0b11111111100111111111000011101111#32 = .ok (.rvJal 1 0x1FFFF8#21) := by decide

/-- Program P2. -/
theorem test_decode_guest_loads :
    decodeGuest 0x00358403#32 = .ok (.rvLb 8 11 3#12) ∧ decodeGuest 0x00059303#32 = .ok (.rvLh 6 11 0#12) ∧
    decodeGuest 0x0025A603#32 = .ok (.rvLw 12 11 2#12) ∧ decodeGuest 0x0035C483#32 = .ok (.rvLbu 9 11 3#12) ∧
    decodeGuest 0x0005D383#32 = .ok (.rvLhu 7 11 0#12) := by decide

/-- Programs P2 and P3; the last word is `sb x5, -1(x11)`: imm[11:5] all ones, imm[4:0] all ones (R90). -/
theorem test_decode_guest_stores :
    decodeGuest 0x005581A3#32 = .ok (.rvSb 5 11 3#12) ∧ decodeGuest 0x00559023#32 = .ok (.rvSh 5 11 0#12) ∧
    decodeGuest 0x0065A223#32 = .ok (.rvSw 6 11 4#12) ∧ decodeGuest 0x00152223#32 = .ok (.rvSw 1 10 4#12) ∧
    decodeGuest 0b11111110010101011000111110100011#32 = .ok (.rvSb 5 11 0xFFF#12) := by decide

/-- `addi x0, x0, 0` of P3, and the rows' opcodes with a `funct3` outside R90. -/
theorem test_decode_rejects_guest_words :
    ([0x00000013#32, 0x00001067#32, 0x00003003#32, 0x00006003#32, 0x00007003#32, 0x00003023#32, 0x00000000#32].all
      fun w => decide (decodeGuest w = .error .unmappedWord)) = true := by decide

/-- Records and words of 95_test_vectors.md, by the encoder. -/
theorem test_encode_samples :
    encode (.jal 31 0x7FFFFFFC#32) = .record 0x11F000000007FFFFFFC#75 ∧
    encode (.st1 0x80001000#32 0x100#32) = .record 0x4200000010080001000#75 ∧
    encode (.rvJal 1 12#21) = .guest 0x00C000EF#32 ∧ encode (.rvLbu 9 11 3#12) = .guest 0x0035C483#32 ∧
    encode (.rvSw 6 11 4#12) = .guest 0x0065A223#32 := by decide

/-- No two rows of the opcode table select one word (30_encoding.md R76, R90). -/
theorem test_rows_are_disjoint :
    recordRows.Pairwise (fun r q => r.pattern &&& q.mask ≠ q.pattern &&& r.mask) ∧
    guestRows.Pairwise (fun r q => r.pattern &&& q.mask ≠ q.pattern &&& r.mask) := by decide

theorem test_decodeTableWord_both_kinds :
    decodeTableWord 80 0x1010000000000000010 = some (.jal 1 0x10#32) ∧
    decodeTableWord 32 0x00C000EF = some (.rvJal 1 12#21) ∧ decodeTableWord 80 0 = none := by decide

/-! ### The record instructions, one step each -/

theorem test_jal_links_and_jumps :
    nextIs (step (offered 0x1010000000000000010#75))
      (fun t => readReg t 1 == 0x80000004#32 && t.pc == 0x80000010#32) = true := by decide

theorem test_jal_wraps_and_keeps_odd_offsets :
    nextIs (step { offered 0x1010000000000000008#75 with pc := 0xFFFFFFFC#32 })
      (fun t => readReg t 1 == 0#32 && t.pc == 4#32) = true ∧
    nextIs (step (offered 0x1010000000000000003#75)) (fun t => t.pc == 0x80000003#32) = true := by decide

theorem test_jalr_clears_bit_0_only :
    nextIs (step (offered 0x2010000000180000101#75))
      (fun t => readReg t 1 == 0x80000004#32 && t.pc == 0x80000102#32) = true ∧
    nextIs (step (offered 0x2010000000080000101#75)) (fun t => t.pc == 0x80000100#32) = true := by decide

theorem test_jalr_wraps_and_skips_once :
    nextIs (step (offered 0x20000000002FFFFFFFF#75))
      (fun t => readReg t 0 == 0#32 && t.pc == 0#32 && t.events.length == 1) = true := by decide

theorem test_ld4 :
    nextIs (step { offered 0x3850000000080001000#75 with mem := loadBytes })
      (fun t => readReg t 5 == 0x9234FF80#32 && t.pc == 0x80000004#32) = true ∧
    nextIs (step { offered 0x3850000000080001001#75 with mem := loadBytes })
      (fun t => readReg t 5 == 0x7F9234FF#32) = true := by decide

theorem test_ld2 :
    nextIs (step { offered 0x3450000000080001000#75 with mem := loadBytes })
      (fun t => readReg t 5 == 0x0000FF80#32) = true ∧
    nextIs (step { offered 0x3450000000080001003#75 with mem := loadBytes })
      (fun t => readReg t 5 == 0x00007F92#32) = true := by decide

theorem test_ld1 :
    nextIs (step { offered 0x3250000000080001000#75 with mem := loadBytes })
      (fun t => readReg t 5 == 0x00000080#32) = true := by decide

theorem test_lh :
    nextIs (step { offered 0x5E50000000080001000#75 with mem := loadBytes })
      (fun t => readReg t 5 == 0xFFFFFF80#32 && !t.fatal) = true ∧
    nextIs (step { offered 0x5050000000080001001#75 with mem := loadBytes })
      (fun t => readReg t 5 == 0x000034FF#32) = true := by decide

theorem test_lb :
    nextIs (step { offered 0x6050000000080001000#75 with mem := loadBytes })
      (fun t => readReg t 5 == 0xFFFFFF80#32) = true ∧
    nextIs (step { offered 0x6050000000080001004#75 with mem := loadBytes })
      (fun t => readReg t 5 == 0x0000007F#32) = true := by decide

theorem test_load_to_register_0_still_reads :
    nextIs (step { offered 0x3800000000080001000#75 with mem := loadBytes })
      (fun t => readReg t 0 == 0#32 && t.events == [.memRead 0x80001000#32 .word]) = true := by decide

theorem test_st4 :
    nextIs (step { offered 0x4801234567880001001#75 with mem := storeStart })
      (fun t => bytesAtA t == [0xAA#8, 0x78#8, 0x56#8, 0x34#8, 0x12#8]) = true ∧
    nextIs (step { withRegs [(31, 0x77777777#32)] (offered 0x49F0000000080001000#75) with mem := storeStart })
      (fun t => t.mem == [(0x80001004, 0xEE#8)] && readReg t 31 == 0x77777777#32) = true := by decide

theorem test_st2 :
    nextIs (step { offered 0x4401234567880001000#75 with mem := storeStart })
      (fun t => bytesAtA t == [0x78#8, 0x56#8, 0xCC#8, 0xDD#8, 0xEE#8]) = true ∧
    nextIs (step { offered 0x440FFFF800180001003#75 with mem := storeStart })
      (fun t => bytesAtA t == [0xAA#8, 0xBB#8, 0xCC#8, 0x01#8, 0x80#8]) = true := by decide

theorem test_st1 :
    nextIs (step { offered 0x4201234567880001001#75 with mem := storeStart })
      (fun t => bytesAtA t == [0xAA#8, 0x78#8, 0xCC#8, 0xDD#8, 0xEE#8]) = true := by decide

/-- Program P4, steps 3 and 4: an access that wraps at the top of the address space. -/
theorem test_accesses_wrap :
    (memWrite [] 0xFFFFFFFE#32 .word 0xAABBCCDD#32 : Memory) =
      [(0, 0xBB#8), (1, 0xAA#8), (0xFFFFFFFE, 0xDD#8), (0xFFFFFFFF, 0xCC#8)] ∧
    memRead (memWrite [] 0xFFFFFFFE#32 .word 0xAABBCCDD#32) 0xFFFFFFFF#32 .half = 0x0000BBCC#32 := by decide

/-! ### The guest instructions, one step each (programs P1 to P3) -/

theorem test_rvJal :
    nextIs (guestStep 0x00C000EF State.reset)
      (fun t => readReg t 1 == 0x80000004#32 && t.pc == 0x8000000C#32) = true := by decide

/-- `jalr x5, 0(x5)`: the old base is used (70_reset_and_hazards.md R195). -/
theorem test_rvJalr_with_link_in_its_base :
    nextIs (guestStep 0x000282E7 (withRegs [(5, 0x80000011#32)] { State.reset with pc := 0x80000018#32 }))
      (fun t => readReg t 5 == 0x8000001C#32 && t.pc == 0x80000010#32) = true := by decide

/-- P2 steps 1, 4 and 5. -/
theorem test_guest_word_and_half_loads :
    nextIs (guestStep 0x00052283 (withRegs [(10, 0x80001000#32)] { State.reset with mem := loadBytes }))
      (fun t => readReg t 5 == 0x9234FF80#32) = true ∧
    nextIs (guestStep 0x00059303 (withRegs [(11, 0x80001000#32)] { State.reset with mem := loadBytes }))
      (fun t => readReg t 6 == 0xFFFFFF80#32) = true ∧
    nextIs (guestStep 0x0005D383 (withRegs [(11, 0x80001000#32)] { State.reset with mem := loadBytes }))
      (fun t => readReg t 7 == 0x0000FF80#32) = true := by decide

/-- P2 steps 6 and 7, on the byte 0x92. -/
theorem test_guest_byte_loads :
    nextIs (guestStep 0x00358403 (withRegs [(11, 0x80001000#32)] { State.reset with mem := loadBytes }))
      (fun t => readReg t 8 == 0xFFFFFF92#32) = true ∧
    nextIs (guestStep 0x0035C483 (withRegs [(11, 0x80001000#32)] { State.reset with mem := loadBytes }))
      (fun t => readReg t 9 == 0x00000092#32) = true := by decide

/-- P2 steps 2, 3 and 8, over the bytes of section 2.6. -/
theorem test_guest_stores :
    nextIs (guestStep 0x00559023
        (withRegs [(5, 0x9234FF80#32), (11, 0x80001000#32)] { State.reset with mem := storeStart }))
      (fun t => bytesAtA t == [0x80#8, 0xFF#8, 0xCC#8, 0xDD#8, 0xEE#8]) = true ∧
    nextIs (guestStep 0x005581A3
        (withRegs [(5, 0x9234FF80#32), (11, 0x80001000#32)] { State.reset with mem := storeStart }))
      (fun t => bytesAtA t == [0xAA#8, 0xBB#8, 0xCC#8, 0x80#8, 0xEE#8]) = true ∧
    nextIs (guestStep 0x0065A223
        (withRegs [(6, 0xFFFFFF80#32), (11, 0x80000FFC#32)] { State.reset with mem := storeStart }))
      (fun t => bytesAtA t == [0x80#8, 0xFF#8, 0xFF#8, 0xFF#8, 0xEE#8]) = true := by decide

/-! ### Fatal and reset -/

/-- Vectors 2.4, 2.6 and 2.7. -/
theorem test_fatal_records :
    step (offered 0x3650000000080001000#75) =
      .next { offered 0x3650000000080001000#75 with fatal := true, fatalKind := 1#2 } ∧
    step (offered 0x0610000000000000000#75) =
      .next { offered 0x0610000000000000000#75 with fatal := true, fatalKind := 2#2 } := ⟨rfl, rfl⟩

/-- P3 step 5, and no step after it. -/
theorem test_fatal_guest_word_then_no_step :
    nextIs (guestStep 0x00000013 State.reset)
      (fun t => t.fatal && t.fatalKind == 2#2 && t.pc == 0x80000000#32) = true ∧
    step { offered 0x1010000000000000004#75 with fatal := true, fatalKind := 1#2 } =
      .fault (.fatalLatched 1#2) := ⟨by decide, rfl⟩

/-- Section 2.9: reset from the fatal state, after which a `jal` runs. -/
theorem test_reset_from_fatal :
    nextIs (step { offered 0x1010000000000000010#75 with fatal := true, fatalKind := 2#2, resetReq := true })
      (fun t => !t.fatal && nextIs (step t) (fun u => readReg u 1 == 0x80000004#32)) = true := by decide

/-! ### Primitives (section 2.1) -/

theorem test_sign_extend :
    signExtendTo 0x12345680#32 .byte = 0xFFFFFF80#32 ∧ signExtendTo 0x0000007F#32 .byte = 0x0000007F#32 ∧
    signExtendTo 0x00008000#32 .half = 0xFFFF8000#32 ∧ signExtendTo 0xABCD7FFF#32 .half = 0x00007FFF#32 ∧
    signExtendTo 0x80000000#32 .word = 0x80000000#32 := by decide

theorem test_add32_wraps :
    add32 0xFFFFFFFF#32 1#32 = 0#32 ∧ add32 0x80000010#32 0xFFFFFFF0#32 = 0x80000000#32 := by decide

/-! ### Ports (section 2.8) -/

/-- The state of section 2.8. -/
def portState : State :=
  withRegs [(1, 0x80000004#32), (10, 0xFFFFFFFE#32)] { State.reset with pc := 0x8000000C#32 }

theorem test_value_of :
    valueOf .default portState "ra" = some (0x80000004#32, true) ∧
    valueOf .default portState "$0" = some (0#32, true) ∧
    valueOf .default portState "pc" = some (0x8000000C#32, true) ∧
    valueOf .default portState "RA" = some (0#32, false) ∧
    valueOf .default portState "" = some (0#32, false) := by decide

theorem test_names_and_indices :
    indexOf .default portState "t6" = some (31, true) ∧ indexOf .default portState "pc" = some (0, false) ∧
    nameOf .default portState 8 = some "s0" := by decide

theorem test_dump :
    (dump .default portState).bind (·[10]?) = some ⟨"a0", "0xfffffffe", -2⟩ ∧
    (dump .default portState).bind (·[32]?) = some ⟨"pc", "0x8000000c", -2147483636⟩ ∧
    dumpLine ⟨"a0", "0xfffffffe", -2⟩ = "a0\t0xfffffffe\t-2\n" := by decide

/-! ### The evaluator (section 1), with register and whitespace patterns and ranks of the tests' own (log 20) -/

/-- The longest run of the given characters. -/
def run (p : Char → Bool) (cs : List Char) : Option Nat :=
  match (cs.takeWhile p).length with
  | 0 => none
  | n + 1 => some (n + 1)

/-- A character of the tests' register names. -/
def nameChar (c : Char) : Bool := !opensToken c && c != ' '

def testParams : EvalParams where
  rules := [.whitespace (run (· == ' ')), .hexadecimal, .decimal, .register (run nameChar), .spelled .land,
    .spelled .lor, .spelled .eq, .spelled .ne, .spelled .le, .spelled .ge, .spelled .lt, .spelled .gt,
    .spelled .plus, .spelled .minus, .spelled .star, .spelled .slash, .spelled .lparen, .spelled .rparen]
  rank
    | .pos | .neg => 1
    | .deref => 2
    | .star | .slash => 3
    | .plus | .minus => 4
    | .lt | .gt | .le | .ge | .eq | .ne => 5
    | .land => 6
    | .lor => 7
    | .dec | .hex | .reg | .lparen | .rparen | .assign => 0

/-- E2. -/
theorem test_eval_precedence :
    exprPort .default testParams State.reset "1+2*3" = some (7#32, true) ∧
    exprPort .default testParams State.reset "(1+2)*3" = some (9#32, true) := by decide

/-- E3 and E4. -/
theorem test_eval_division_by_zero_and_sign :
    exprPort .default testParams State.reset "10/0" = some (0#32, false) ∧
    exprPort .default testParams State.reset "-5+3" = some (0xFFFFFFFE#32, true) := by decide

/-- R174 and R179: literals by their base, the longer operator first, and logical-or loosest. -/
theorem test_eval_bases_and_operators :
    exprPort .default testParams State.reset "0x1F - 12" = some (19#32, true) ∧
    exprPort .default testParams State.reset "3 <= 2 || 0x10 == 16" = some (1#32, true) := by decide

/-- E7: the offending position of `1 & 2` is 2, counted from 0 (log 20). -/
theorem test_eval_lex_error :
    tokenize testParams.rules "1 & 2" = .error (.lex 2) ∧
    exprPort .default testParams State.reset "1 & 2" = some (0#32, false) := by decide

/-- E13: `*-5` is the dereference of a negation; -0x7FFFF000 is the address 0x80001000 of section 2.4. -/
theorem test_eval_dereference_of_negation :
    (reclassifyAll [⟨.star, "*"⟩, ⟨.minus, "-"⟩, ⟨.dec, "5"⟩]).map (·.kind) = [.deref, .neg, .dec] ∧
    exprPort .default testParams { State.reset with mem := loadBytes } "*-0x7FFFF000" =
      some (0x9234FF80#32, true) := by decide

/-- E5 with the bytes of section 2.4, and E6 with the state of section 2.8. -/
theorem test_eval_dereference_and_register :
    exprPort .default testParams { State.reset with mem := loadBytes } "*0x80001000" = some (0x9234FF80#32, true) ∧
    exprPort .default testParams portState "ra" = some (0x80000004#32, true) ∧
    exprPort .default testParams portState "x1" = some (0#32, false) := by decide

/-! ### Witnesses: the hypotheses of each statement hold together of something -/

theorem witness_DecodeOfEncode :
    (Instr.rvJal 31 0x1FFFFE#21).wellFormed = true ∧ (Instr.st4 0#32 0#32).wellFormed = true := by decide

theorem witness_DecodedGuestWordReencodes : decodeGuest 0xFE558FA3#32 = .ok (.rvSb 5 11 0xFFF#12) := by decide

theorem witness_StepRunsTheOfferedRecord :
    (offered 0x1010000000000000010#75).resetReq = false ∧ (offered 0x1010000000000000010#75).fatal = false ∧
    (offered 0x1010000000000000010#75).supply = .records (0x1010000000000000010#75 :: []) ∧
    decodeRecord 0x1010000000000000010#75 = .ok (.jal 1 0x10#32) := by decide

/-- A guest word at `pc`, for the front end. -/
def atPc (w : Nat) : State := State.reset.withFetchWord 32 w

theorem witness_StepRunsTheGuestWordAtPc :
    (atPc 0x00C000EF).resetReq = false ∧ (atPc 0x00C000EF).fatal = false ∧ (atPc 0x00C000EF).supply = .frontEnd ∧
    memAdmits (atPc 0x00C000EF) (atPc 0x00C000EF).pc .word .read = true ∧
    decodeGuest (byteOf (atPc 0x00C000EF) ((atPc 0x00C000EF).pc + 3#32) ++
      byteOf (atPc 0x00C000EF) ((atPc 0x00C000EF).pc + 2#32) ++
      byteOf (atPc 0x00C000EF) ((atPc 0x00C000EF).pc + 1#32) ++ byteOf (atPc 0x00C000EF) (atPc 0x00C000EF).pc)
      = .ok (.rvJal 1 12#21) := by decide

/-- A mapped word, an unmapped one, and the next state, the fault of a latched block. -/
theorem witness_FrontEndStepIsTheRecordStep :
    (atPc 0x00C000EF).supply = .frontEnd ∧ fetchWord (atPc 0x00C000EF) = .ok 0x00C000EF#32 ∧
    nextIs (step (atPc 0x00C000EF)) (fun _ => true) = true ∧
    (atPc 0x00000013).supply = .frontEnd ∧ fetchWord (atPc 0x00000013) = .ok 0x00000013#32 ∧
    nextIs (step (atPc 0x00000013)) (fun _ => true) = true ∧
    fetchWord { atPc 0x00C000EF with fatal := true } = .ok 0x00C000EF#32 := by decide

/-- Both kinds, with the widths on either side of the boundary between them. -/
theorem witness_LoadedWordRunsNext :
    State.reset.mem.wf = true ∧ State.reset.fatal = false ∧
    memAdmits State.reset State.reset.pc .word .read = true ∧
    decodeTableWord 32 0x00C000EF = some (.rvJal 1 12#21) ∧
    decodeTableWord 33 0x1010000000000000010 = some (.jal 1 0x10#32) := by decide

theorem witness_NoRecordNoStep :
    State.reset.resetReq = false ∧ State.reset.fatal = false ∧ State.reset.supply = .records [] := by decide

theorem witness_RefusedFetchHasNoOutcome :
    refusing.resetReq = false ∧ refusing.fatal = false ∧ { refusing with supply := .frontEnd }.supply = .frontEnd ∧
    memAdmits { refusing with supply := .frontEnd } refusing.pc .word .read = false := by decide

/-- JalLinksAndJumps, JalrLinksJumpsAndSkips, GuestJalLinksAndJumps, GuestJalrUsesTheOldBase. -/
theorem witness_jumps : State.reset.fatal = false := by decide

theorem witness_JalrTargetIsEven :
    Instr.isJalr (.jalr 1 0x80000101#32 0#32) = true ∧ Instr.isJalr (.rvJalr 1 5 3#12) = true ∧
    (∃ t, exec (.jalr 1 0x80000101#32 0#32) State.reset = .next t) ∧
    (∃ t, exec (.rvJalr 1 5 3#12) State.reset = .next t) := ⟨rfl, rfl, ⟨_, rfl⟩, ⟨_, rfl⟩⟩

theorem witness_NoTargetSurvivesACycle :
    (∃ t, step (offered 0x1010000000000000010#75) = .next t) ∧ (∃ t, exec (.jal 1 0x10#32) State.reset = .next t) :=
  ⟨⟨_, rfl⟩, ⟨_, rfl⟩⟩

/-- Ld4LoadsTheWord, Ld2ZeroExtends, Ld1ZeroExtends, LhSignExtends, LbSignExtends and
GuestLoadsReadAtBasePlusOffset: an admitted and a refused access of each width. -/
theorem witness_loads :
    State.reset.fatal = false ∧ refusing.fatal = false ∧
    (∀ w ∈ [Width.byte, .half, .word], memAdmits State.reset 0xFFFFFFFF#32 w .read = true ∧
      memAdmits refusing 0xFFFFFFFF#32 w .read = false) ∧
    0xFFFFFFFF#32 = readReg State.reset 0 + (0xFFF#12).signExtend 32 := by decide

/-- St4StoresTheWord, St2StoresTheLowHalf, St1StoresTheLowByte and GuestStoresWriteAtBasePlusOffset. -/
theorem witness_stores :
    State.reset.fatal = false ∧ State.reset.mem.wf = true ∧ refusing.fatal = false ∧ refusing.mem.wf = true ∧
    (∀ w ∈ [Width.byte, .half, .word], memAdmits State.reset 0xFFFFFFFF#32 w .write = true ∧
      memAdmits refusing 0xFFFFFFFF#32 w .write = false) ∧
    0xFFFFFFFF#32 = readReg State.reset 0 + (0xFFF#12).signExtend 32 := by decide

theorem witness_StoreThenLoadReturnsTheWord :
    State.reset.fatal = false ∧ State.reset.mem.wf = true ∧
    memAdmits State.reset 0xFFFFFFFE#32 .word .write = true ∧
    memAdmits State.reset 0xFFFFFFFE#32 .word .read = true := by decide

theorem witness_NarrowReadsOfAWrittenWord : loadBytes.wf = true ∧ Memory.wf [] = true := by decide

theorem witness_StoredWordIsFetched :
    (withRegs [(11, 0x80000004#32)] State.reset).fatal = false ∧
    (withRegs [(11, 0x80000004#32)] State.reset).mem.wf = true ∧
    readReg (withRegs [(11, 0x80000004#32)] State.reset) 11 + (0#12).signExtend 32 = 0x80000000#32 + 4#32 ∧
    (withRegs [(11, 0x80000004#32)] State.reset).pc = 0x80000000#32 ∧
    memAdmits State.reset (0x80000000#32 + 4#32) .word .write = true ∧
    memAdmits State.reset (0x80000000#32 + 4#32) .word .read = true := by decide

/-- Each width, on both sides of the last copied bit. -/
theorem witness_SignExtendCopiesTheTopBit :
    7 < 8 * Width.byte.bytes ∧ ¬ 8 < 8 * Width.byte.bytes ∧ 15 < 8 * Width.half.bytes ∧
    ¬ 16 < 8 * Width.half.bytes ∧ 31 < 8 * Width.word.bytes ∧ 31 < 32 := by decide

theorem witness_RegisterWriteThenRead : (31 : RegIdx) ≠ 0 ∧ (0 : RegIdx) ≠ 31 := by decide

/-- LdWithUnsupportedWidthIsFatal, StWithUnsupportedWidthIsFatal: every unsupported width of each. -/
theorem witness_UnsupportedWidthIsFatal :
    (∀ d : Record, (offered d).resetReq = false ∧ (offered d).fatal = false ∧
      (offered d).supply = .records (d :: [])) ∧
    (∀ w ∈ [0#3, 3#3, 5#3, 6#3, 7#3], recOp (mkRecord 3 w 5 0 0) = 3#3 ∧ recOp (mkRecord 4 w 5 0 0) = 4#3 ∧
      recWidth (mkRecord 3 w 5 0 0) = w ∧ recWidth (mkRecord 4 w 5 0 0) = w ∧ w ≠ 1#3 ∧ w ≠ 2#3 ∧ w ≠ 4#3) :=
  ⟨fun _ => ⟨rfl, rfl, rfl⟩, by decide⟩

theorem witness_UnknownInstructionIsFatal :
    (offered 0#75).resetReq = false ∧ (offered 0#75).fatal = false ∧ (offered 0#75).supply = .records (0#75 :: []) ∧
    recOp 0#75 = 0#3 ∧ recOp 0x7811234567880001000#75 = 7#3 ∧
    (atPc 0x00000013).resetReq = false ∧ (atPc 0x00000013).fatal = false ∧ (atPc 0x00000013).supply = .frontEnd ∧
    fetchWord (atPc 0x00000013) = .ok 0x00000013#32 ∧ rowsSelected (.guest 0x00000013#32) = [] := by decide

theorem witness_FatalCycleCommitsNothing :
    (offered 0#75).fatal = false ∧ (∃ t, step (offered 0#75) = .next t ∧ t.fatal = true) ∧
    (∃ t, step (offered 0x3050000000080001000#75) = .next t ∧ t.fatal = true) :=
  ⟨rfl, ⟨_, rfl, rfl⟩, ⟨_, rfl, rfl⟩⟩

/-- A latched block, as FatalEndsOnlyByReset, NoInstructionIsFatal and PortsSilentWhileFatal need it. -/
def latched : State := { State.reset with fatal := true, fatalKind := 2#2 }

theorem witness_latched :
    latched.fatal = true ∧ latched.resetReq = false ∧ (∃ t, step { latched with resetReq := true } = .next t) ∧
    (∃ t, exec (.jal 1 0#32) State.reset = .next t) := ⟨rfl, rfl, ⟨_, rfl⟩, ⟨_, rfl⟩⟩

theorem witness_ResetFromAnyState :
    { latched with resetReq := true }.resetReq = true ∧ (1 : RegIdx) ≠ 0 ∧ (31 : RegIdx) ≠ 0 := by decide

/-- StepKeepsTheInvariant: a cycle, a Fatal entry and a reset, from states that meet the invariant. -/
theorem witness_StepKeepsTheInvariant :
    State.Inv { offered 0x4801234567880001001#75 with mem := storeStart } ∧ State.Inv (offered 0#75) ∧
    State.Inv { latched with resetReq := true } ∧
    (∃ t, step { offered 0x4801234567880001001#75 with mem := storeStart } = .next t) ∧
    (∃ t, step (offered 0#75) = .next t) ∧ (∃ t, step { latched with resetReq := true } = .next t) :=
  ⟨by decide, by decide, by decide, ⟨_, rfl⟩, ⟨_, rfl⟩, ⟨_, rfl⟩⟩

/-- CycleWritesAtMostOneRegister, CycleHasAtMostOneOutput, StepKeepsParametersAndTakesOneRecord. -/
theorem witness_one_step :
    (offered 0x1010000000000000010#75).resetReq = false ∧
    (∃ t, step (offered 0x1010000000000000010#75) = .next t) := ⟨rfl, ⟨_, rfl⟩⟩

theorem witness_MemoryChangesOnlyByWriteRequests :
    (offered 0x4801234567880001000#75).mem.wf = true ∧
    ∃ t, step (offered 0x4801234567880001000#75) = .next t ∧
      byteOf t 0x80001003#32 ≠ byteOf (offered 0x4801234567880001000#75) 0x80001003#32 :=
  ⟨rfl, ⟨_, rfl, by decide⟩⟩

theorem witness_OnlyJalrSkips :
    ∃ t, exec (.jalr 1 0#32 0#32) State.reset = .next t ∧
      PortEvent.skip Config.jalrSkipN Config.jalrSkipReason ∈ t.events := ⟨_, rfl, List.mem_singleton.mpr rfl⟩

/-- ValueOfFindsExactlyTheNames, NamesAndIndicesCorrespond, DumpListsRegistersThenPc and EvaluatorReadsThroughThePorts:
the default table is one-to-one, "x1" is in it nowhere, and the dereferenced address is admitted. -/
theorem witness_names :
    NameTable.default.wf ∧ State.reset.fatal = false ∧ "x1" ≠ NameTable.default.pc ∧
    (∀ i : RegIdx, NameTable.default.reg[i] ≠ "x1") ∧
    indexOf .default State.reset "t6" = some (31, true) ∧
    evalTokens .default testParams State.reset [⟨.hex, "0x80001000"⟩] = .ok 0x80001000#32 ∧
    memAdmits State.reset 0x80001000#32 .word .read = true := by decide

/-- SpellingsLexAsTheirKinds, LiteralsEvaluateByTheirBase, UnaryBindsTightestAndOrLoosest and
StarThenSignDereferencesTheSignedValue: a table and ranks that are as the rules state them. -/
theorem witness_evalParams_wf : testParams.wf := by
  refine ⟨⟨by simp [spelledKinds, testParams], by simp [testParams], by simp [testParams],
    ⟨run nameChar, by simp [testParams]⟩, ⟨run (· == ' '), by simp [testParams]⟩⟩, by simp [testParams, mayPrecede, TokenKind.spelling, beginsWith], ?_, ?_⟩
  · intro c cs h
    have hc : (c == ' ') = false := by
      cases e : c == ' ' with
      | false => rfl
      | true => exact absurd (eq_of_beq e ▸ h) (by decide)
    refine ⟨fun f hf => ?_, fun f hf => ?_⟩
    · obtain rfl : f = run nameChar := by simpa [testParams] using hf
      simp [run, nameChar, h]
    · obtain rfl : f = run (· == ' ') := by simpa [testParams] using hf
      simp only [run, List.takeWhile_cons, hc]
      rfl
  · exact ⟨fun u k => by cases u <;> cases k <;> decide, by decide, fun k => by cases k <;> decide, by decide⟩

/-- The largest number a word holds, in both bases, and the digits of zero. -/
theorem witness_LiteralsEvaluateByTheirBase :
    ([4, 2, 9, 4, 9, 6, 7, 2, 9, 5] : List (Fin 10)) ≠ [] ∧
    Nat.ofDigits 10 (([4, 2, 9, 4, 9, 6, 7, 2, 9, 5] : List (Fin 10)).reverse.map Fin.val) < 2 ^ 32 ∧
    ([15, 15, 15, 15, 15, 15, 15, 15] : List (Fin 16)) ≠ [] ∧
    Nat.ofDigits 16 (([15, 15, 15, 15, 15, 15, 15, 15] : List (Fin 16)).reverse.map Fin.val) < 2 ^ 32 ∧
    Nat.ofDigits 10 (([0] : List (Fin 10)).reverse.map Fin.val) < 2 ^ 32 ∧ State.reset.fatal = false := by decide

/-- `-1 - 0x2 - ra * 3`, split at its second binary `-`, and `1 || 3 || +3` at its last `||`; a lone `&` before another
character and at the end. -/
theorem witness_UnaryBindsTightestAndOrLoosest :
    let left : List Token := [⟨.neg, "-"⟩, ⟨.dec, "1"⟩, ⟨.minus, "-"⟩, ⟨.hex, "0x2"⟩]
    let right : List Token := [⟨.reg, "ra"⟩, ⟨.star, "*"⟩, ⟨.dec, "3"⟩]
    let before : List Token := [⟨.dec, "1"⟩, ⟨.lor, "||"⟩, ⟨.dec, "3"⟩]
    let after : List Token := [⟨.pos, "+"⟩, ⟨.dec, "3"⟩]
    (∀ t ∈ left ++ right, t.kind ≠ .lparen ∧ t.kind ≠ .rparen) ∧ left ++ right ≠ [] ∧
    TokenKind.isOperator .minus = true ∧ TokenKind.isUnary .minus = false ∧
    (∀ t ∈ left, t.kind.isOperator = true → t.kind.isUnary = false →
      testParams.rank t.kind ≤ testParams.rank .minus) ∧
    (∀ t ∈ right, t.kind.isOperator = true → t.kind.isUnary = false →
      testParams.rank t.kind < testParams.rank .minus) ∧
    (∀ t ∈ before ++ after, t.kind ≠ .lparen ∧ t.kind ≠ .rparen) ∧ before ++ after ≠ [] ∧
    TokenKind.isOperator .lor = true ∧ TokenKind.isUnary .lor = false ∧ (∀ t ∈ after, t.kind ≠ .lor) ∧
    [' ', '2'].head? ≠ some '&' ∧ ([] : List Char).head? ≠ some '&' := by decide

theorem witness_StarThenSignDereferencesTheSignedValue :
    State.reset.fatal = false ∧ evalTokens .default testParams State.reset [⟨.hex, "0x7FFFF000"⟩] = .ok 0x7FFFF000#32 ∧
    0x80001000#32 = -0x7FFFF000#32 ∧ memAdmits State.reset 0x80001000#32 .word .read = true ∧
    memAdmits State.reset 0x7FFFF000#32 .word .read = true := by decide

/-- Zero, one and three tokens between the parentheses. -/
theorem witness_ParenthesesEvaluateAsTheirInterior :
    (⟨.lparen, "("⟩ : Token).kind = .lparen ∧ (⟨.rparen, ")"⟩ : Token).kind = .rparen ∧
    (depthAfter 0 []).isSome = true ∧ (depthAfter 0 [⟨.dec, "1"⟩]).isSome = true ∧
    (depthAfter 0 [⟨.dec, "1"⟩, ⟨.plus, "+"⟩, ⟨.dec, "2"⟩]).isSome = true := by decide

end Sys2Proof.Tests
end

/-! The step's inputs and outputs (00_scope.md R6 to R8): what is offered, what is run, what is put out. -/

namespace Sys2Proof.Machine

/-! ### What is offered is run -/

/-- An unlatched block, no reset asserted, runs what it is offered (40_cycle_and_primitives.md R100). -/
theorem step_of_nextOffer_run {s u : State} {i : Instr} (hr : s.resetReq = false) (hf : s.fatal = false)
    (h : nextOffer s = .run i u) : step s = exec i u := by
  simp [step, hr, hf, h]

/-- The next record of the queue is offered, and taken from it (30_encoding.md R70). -/
theorem nextOffer_of_record {s : State} {d : Record} {rest : List Record} {i : Instr}
    (hs : s.supply = .records (d :: rest)) (hd : decodeRecord d = .ok i) :
    nextOffer s = .run i { s with supply := .records rest } := by
  simp [nextOffer, hs, hd]

/-! ### What a cycle leaves unchanged, and what it puts out -/

theorem HelperEffect.params {s t : State} (h : HelperEffect s t) : t.params = s.params := by
  cases h <;> simp

theorem HelperEffect.supply {s t : State} (h : HelperEffect s t) : t.supply = s.supply := by
  cases h <;> simp

theorem HelperEffect.length_events_le {s t : State} (h : HelperEffect s t) :
    t.events.length ≤ s.events.length + 1 := by
  cases h <;> simp

theorem exec_params {i : Instr} {s t : State} (h : exec i s = .next t) : t.params = s.params := by
  obtain ⟨-, u, hu, rfl⟩ := exec_effect h
  simp [hu.params]

theorem exec_supply {i : Instr} {s t : State} (h : exec i s = .next t) : t.supply = s.supply := by
  obtain ⟨-, u, hu, rfl⟩ := exec_effect h
  simp [hu.supply]

/-- A cycle begins with no output, and its helper adds at most one. -/
theorem exec_length_events_le_one {i : Instr} {s t : State} (h : exec i s = .next t) : t.events.length ≤ 1 := by
  obtain ⟨-, u, hu, rfl⟩ := exec_effect h
  simpa using hu.length_events_le

/-! ### The obligations -/

/-- Settles O7: the record is what the block is offered, and it runs what it is offered. -/
theorem stepRunsTheOfferedRecord : Obligations.StepRunsTheOfferedRecord := by
  intro s d rest i hr hf hs hd
  exact step_of_nextOffer_run hr hf (nextOffer_of_record hs hd)

/-- Settles O46: reset and Fatal entry put nothing out, and a cycle at most one event. -/
theorem cycleHasAtMostOneOutput : Obligations.CycleHasAtMostOneOutput := by
  intro s t h
  obtain ⟨-, rfl⟩ | ⟨-, -, k, -, rfl⟩ | ⟨-, -, i, u, -, hexec⟩ := step_eq_next h
  · simp
  · simp
  · exact exec_length_events_le_one hexec

/-- Settles O48: only the offer takes a record, one at most; reset, Fatal entry and the cycle keep parameters and
record input. -/
theorem stepKeepsParametersAndTakesOneRecord : Obligations.StepKeepsParametersAndTakesOneRecord := by
  intro s t h
  obtain ⟨-, rfl⟩ | ⟨-, -, k, -, rfl⟩ | ⟨-, -, i, u, hoffer, hexec⟩ := step_eq_next h
  · simp
  · simp
  · rw [exec_params hexec, exec_supply hexec]
    obtain ⟨d, rest, hs, -, rfl⟩ | ⟨-, rfl, -⟩ := nextOffer_run hoffer
    · exact ⟨rfl, .inr ⟨d, rest, hs, rfl⟩⟩
    · exact ⟨rfl, .inl rfl⟩

end Sys2Proof.Machine

/-! The state (10_state.md R20 to R40): what a cycle can change in it, and the invariant every step keeps. -/

namespace Sys2Proof.Machine

/-! ### What a step can do to the state -/

/-- What is offered runs in the same state, but for the record input. -/
theorem nextOffer_run_eq {s u : State} {i : Instr} (h : nextOffer s = .run i u) :
    ∃ q, u = { s with supply := q } := by
  obtain ⟨d, rest, -, -, rfl⟩ | ⟨-, rfl, -⟩ := nextOffer_run h
  · exact ⟨.records rest, rfl⟩
  · exact ⟨u.supply, rfl⟩

/-- Every step that answers is an asserted reset, a Fatal entry, or one helper between the begin and the end of a cycle,
with the record input `q` that the offer leaves. -/
theorem step_effect {s t : State} (h : step s = .next t) :
    (s.resetReq = true ∧ t = resetBlock s) ∨
    (∃ k, t = takeFatal k s) ∨
    (s.fatal = false ∧ ∃ q u, HelperEffect (beginCycle { s with supply := q }) u ∧ t = endCycle u) := by
  obtain hreset | ⟨-, -, k, -, rfl⟩ | ⟨-, hf, i, v, hoffer, hexec⟩ := step_eq_next h
  · exact .inl hreset
  · exact .inr (.inl ⟨k, rfl⟩)
  · obtain ⟨q, rfl⟩ := nextOffer_run_eq hoffer
    obtain ⟨-, u, hu, rfl⟩ := exec_effect hexec
    exact .inr (.inr ⟨hf, q, u, hu, rfl⟩)

/-! ### What a helper leaves unchanged -/

theorem HelperEffect.fatal {s t : State} (h : HelperEffect s t) : t.fatal = s.fatal := by
  cases h <;> simp

theorem HelperEffect.fatalKind {s t : State} (h : HelperEffect s t) : t.fatalKind = s.fatalKind := by
  cases h <;> simp

/-- A helper keeps the canonical form of memory: only a store touches memory, by `MemWrite`. -/
theorem HelperEffect.wf_mem {s t : State} (h : HelperEffect s t) (hwf : s.mem.wf = true) : t.mem.wf = true := by
  cases h with
  | jal | jalr | load => simpa using hwf
  | store ea v w => exact Memory.wf_memWrite hwf ea w v

/-- A helper writes no register but one: the link register, or a load's destination (10_state.md R40). -/
theorem HelperEffect.regsExcept {s t : State} (h : HelperEffect s t) : ∃ rd, RegsExcept rd s t := by
  cases h with
  | jal rd | jalr rd | load rd => exact ⟨rd, fun j hj => by simp [readReg_setRegister_ne _ _ hj]⟩
  | store => exact ⟨0, fun j _ => readReg_of_gpr_eq rfl j⟩

/-! ### Memory and the write requests -/

/-- A write request among `events`, of at most 4 bytes, asks for the byte `v` at the address `a`. -/
def WriteRequested (events : List PortEvent) (a : Word) (v : Byte) : Prop :=
  ∃ addr bytes k, PortEvent.memWrite addr bytes ∈ events ∧ bytes.length ≤ 4 ∧ k < bytes.length ∧
    a = addr + BitVec.ofNat 32 k ∧ bytes[k]? = some v

/-- A byte that a write of `w` bytes at `ea` changes is one of these bytes, and holds what was requested there. -/
theorem writeRequested_of_memWrite {m : Memory} (hwf : m.wf = true) {ea v a : Word} {w : Width}
    {events : List PortEvent} (he : .memWrite ea (storeBytes w v) ∈ events)
    (hne : (memWrite m ea w v).byteAt a.toNat ≠ m.byteAt a.toNat) :
    WriteRequested events a ((memWrite m ea w v).byteAt a.toNat) := by
  have ha : a ∈ accessAddrs ea w := by
    by_contra hout
    exact hne (byteAt_memWrite_of_not_mem hwf ea w v fun x hx hxa => hout (BitVec.eq_of_toNat_eq hxa ▸ hx))
  obtain ⟨k, hk, rfl⟩ := mem_accessAddrs.mp ha
  have hk' : k < (storeBytes w v).length := by simpa using hk
  refine ⟨ea, storeBytes w v, k, he, by simpa using bytes_le w, hk', rfl, ?_⟩
  rw [byteAt_memWrite hwf ea w v hk, List.getElem?_eq_getElem hk', getElem_storeBytes]

/-- A helper changes a byte of memory only by a write request that it puts out (20_memory.md R50). -/
theorem HelperEffect.writeRequested {s t : State} (h : HelperEffect s t) (hwf : s.mem.wf = true) {a : Word}
    (hne : byteOf t a ≠ byteOf s a) : WriteRequested t.events a (byteOf t a) := by
  cases h with
  | jal | jalr | load => simp [byteOf] at hne
  | store ea v w => exact writeRequested_of_memWrite hwf (by simp) hne

/-! ### Jumps -/

/-- A cycle whose helper committed `target` and did nothing else but write the link register. -/
theorem jumpDone_endCycle {s u : State} {rd : RegIdx} {target : Word} (hp : u.pending = some target)
    (hregs : SameRegs (setRegister rd (s.pc + 4#32) s) u) (hmem : u.mem = s.mem) (hsur : SameSurroundings s u) :
    JumpDone s (endCycle u) rd target u.events := by
  refine ⟨endCycle_pc_of_target u hp, ?link, fun j hj => ?others, fun a => by simp [byteOf, hmem],
    endCycle_events u, by simpa [SameSurroundings] using hsur⟩
  case link =>
    rw [endCycle_readReg, hregs rd]
    by_cases h0 : rd = 0
    · simp [h0]
    · simp [h0, readReg_setRegister_self]
  case others => rw [endCycle_readReg, hregs j, readReg_setRegister_ne s _ hj]

/-- A register written in the state a cycle begins with reads as if written before the cycle. -/
theorem sameRegs_setRegister_beginCycle (s : State) (rd : RegIdx) (v : Word) :
    SameRegs (setRegister rd v s) (setRegister rd v (beginCycle s)) := fun j => by
  simp [readReg_setRegister]

/-- The cycle of `jal` (41_jump_and_link.md R120). -/
theorem runCycle_helperJal {s : State} (hf : s.fatal = false) (rd : RegIdx) (imm : Word) :
    ∃ t, runCycle (helperJal rd imm) s = .next t ∧ JumpDone s t rd (s.pc + imm) [] := by
  refine ⟨_, runCycle_of_ok hf (helperJal_eq rd imm (beginCycle s)), ?_⟩
  simpa using jumpDone_endCycle (s := s)
    (u := commitJump (s.pc + imm) (setRegister rd (s.pc + 4#32) (beginCycle s))) rfl
    (sameRegs_setRegister_beginCycle s rd _) (by simp) (by simp [SameSurroundings])

/-- The cycle of `jalr` (41_jump_and_link.md R121). -/
theorem runCycle_helperJalr {s : State} (hf : s.fatal = false) (rd : RegIdx) (base off : Word) :
    ∃ t, runCycle (helperJalr rd base off) s = .next t ∧
      JumpDone s t rd ((base + off) &&& ~~~(1#32)) [.skip Config.jalrSkipN Config.jalrSkipReason] := by
  refine ⟨_, runCycle_of_ok hf (helperJalr_eq rd base off (beginCycle s)), ?_⟩
  simpa using jumpDone_endCycle (s := s)
    (u := difftestSkip _ (commitJump _ (setRegister rd (s.pc + 4#32) (beginCycle s)))) rfl
    (sameRegs_setRegister_beginCycle s rd _) (by simp) (by simp [SameSurroundings])

/-- Either form of `jalr` is a cycle around the one helper. -/
theorem exec_eq_helperJalr_of_isJalr {i : Instr} (h : Instr.isJalr i = true) (s : State) :
    ∃ rd base off, exec i s = runCycle (helperJalr rd base off) s := by
  cases i with
  | jalr rd base off => exact ⟨rd, base, off, exec_jalr ..⟩
  | rvJalr rd rs1 off => exact ⟨rd, readReg s rs1, imm12 off, exec_rvJalr ..⟩
  | _ => cases h

/-! ### Between cycles -/

/-- Every cycle ends with no pending target (10_state.md R28). -/
theorem exec_pending {i : Instr} {s t : State} (h : exec i s = .next t) : t.pending = none := by
  obtain ⟨-, u, -, rfl⟩ := exec_effect h
  exact endCycle_pending u

/-- The two codes of `fatal_kind` (60_exceptions.md R161). -/
theorem FatalKind.code_eq_one_or_two (k : FatalKind) : k.code = 1#2 ∨ k.code = 2#2 := by
  cases k <;> simp [FatalKind.code]

theorem resetBlock_inv {s : State} (hwf : s.mem.wf = true) : (resetBlock s).Inv :=
  ⟨hwf, rfl, .inl ⟨rfl, rfl⟩⟩

theorem takeFatal_inv {s : State} (k : FatalKind) (hwf : s.mem.wf = true) : (takeFatal k s).Inv :=
  ⟨hwf, rfl, .inr ⟨rfl, k.code_eq_one_or_two⟩⟩

/-- A cycle keeps the invariant: its helper keeps memory canonical and the latch clear, its end takes the target. -/
theorem HelperEffect.inv_endCycle {s u : State} (h : HelperEffect s u) (hwf : s.mem.wf = true)
    (hf : s.fatal = false) (hk : s.fatalKind = 0#2) : (endCycle u).Inv :=
  ⟨by simpa using h.wf_mem hwf, endCycle_pending u, .inl (by simp [h.fatal, h.fatalKind, hf, hk])⟩

/-- After reset, register `i` holds `RESET_GPR(i)` (10_state.md R36). -/
theorem resetGpr_getElem?_eq_readReg (s : State) {i : RegIdx} (h : i ≠ 0) :
    s.params.resetGpr[i.val - 1]? = some (readReg (resetBlock s) i) := by
  have h0 : i.val ≠ 0 := fun e => h (Fin.ext e)
  simp [readReg, h0]

/-! ### The obligations -/

/-- Settles O43: reset and Fatal entry set the latch and its kind together, and a cycle leaves both alone. -/
theorem stepKeepsTheInvariant : Obligations.StepKeepsTheInvariant := by
  rintro s t ⟨hwf, -, hlatch⟩ h
  obtain ⟨-, rfl⟩ | ⟨k, rfl⟩ | ⟨hf, q, u, hu, rfl⟩ := step_effect h
  · exact resetBlock_inv hwf
  · exact takeFatal_inv k hwf
  · have hk : s.fatalKind = 0#2 := by simpa [hf] using hlatch
    exact hu.inv_endCycle hwf hf hk

/-- Settles O14: `jal` is the cycle of its helper. -/
theorem jalLinksAndJumps : Obligations.JalLinksAndJumps := fun rd imm _ hf => runCycle_helperJal hf rd imm

/-- Settles O15: `jalr` is the cycle of its helper. -/
theorem jalrLinksJumpsAndSkips : Obligations.JalrLinksJumpsAndSkips :=
  fun rd base off _ hf => runCycle_helperJalr hf rd base off

/-- Settles O16: both forms run the helper of `jalr`, whose target has bit 0 cleared. -/
theorem jalrTargetIsEven : Obligations.JalrTargetIsEven := by
  intro i s t hi h
  obtain ⟨rd, base, off, hcycle⟩ := exec_eq_helperJalr_of_isJalr hi s
  obtain ⟨hf, -⟩ := exec_effect h
  obtain ⟨t', ht', hpc, -⟩ := runCycle_helperJalr hf rd base off
  rw [hcycle, ht'] at h
  cases h
  simp [hpc]

/-- Settles O19: reset, Fatal entry and the end of a cycle each clear the pending target. -/
theorem noTargetSurvivesACycle : Obligations.NoTargetSurvivesACycle := by
  refine ⟨fun s t h => ?_, fun i s t => exec_pending⟩
  obtain ⟨-, rfl⟩ | ⟨k, rfl⟩ | ⟨-, q, u, -, rfl⟩ := step_effect h
  · exact resetBlock_pending s
  · exact takeFatal_pending s k
  · exact endCycle_pending u

/-- Settles O44: a Fatal entry writes no register, and a cycle at most the one its helper writes. -/
theorem cycleWritesAtMostOneRegister : Obligations.CycleWritesAtMostOneRegister := by
  intro s t hr h
  obtain ⟨hreset, -⟩ | ⟨k, rfl⟩ | ⟨-, q, u, hu, rfl⟩ := step_effect h
  · simp [hr] at hreset
  · exact ⟨0, fun j _ => takeFatal_readReg s k j⟩
  · obtain ⟨rd, hrd⟩ := hu.regsExcept
    exact ⟨rd, fun j hj => (endCycle_readReg u j).trans (hrd j hj)⟩

/-- Settles O45: reset and Fatal entry leave memory alone, and a helper puts out what it writes. -/
theorem memoryChangesOnlyByWriteRequests : Obligations.MemoryChangesOnlyByWriteRequests := by
  intro s t a hwf h hne
  obtain ⟨-, rfl⟩ | ⟨k, rfl⟩ | ⟨-, q, u, hu, rfl⟩ := step_effect h
  · simp [byteOf] at hne
  · simp [byteOf] at hne
  · have hbyte : byteOf (endCycle u) a = byteOf u a := by simp [byteOf]
    rw [hbyte] at hne ⊢
    rw [endCycle_events]
    exact hu.writeRequested hwf hne

/-- Settles O41: an asserted reset is answered by `resetBlock`, before the latch or the record input is looked at. -/
theorem resetFromAnyState : Obligations.ResetFromAnyState := by
  intro s hr
  have hstep : step s = .next (resetBlock s) := by simp [step, hr]
  exact ⟨resetBlock s, hstep, rfl, readReg_zero _, fun _ => resetGpr_getElem?_eq_readReg s, rfl, rfl, rfl, rfl, rfl,
    rfl, rfl, rfl⟩

/-- Settles O42: the state after reset has an empty memory and a clear latch. -/
theorem resetStateMeetsTheInvariant : Obligations.ResetStateMeetsTheInvariant :=
  ⟨⟨rfl, rfl, .inl ⟨rfl, rfl⟩⟩, rfl, readReg_zero State.reset⟩

end Sys2Proof.Machine

/-! Guest memory (20_memory.md R50 to R67): what a read gives after a write at the same place or inside it, what the
cycle of a store and of a load leaves, and the front end's fetch. -/

namespace Sys2Proof.Machine

/-! ### Reads of what was written -/

/-- A word read where a word was written is that word (20_memory.md R60). -/
theorem memRead_word_memWrite {m : Memory} (h : m.wf = true) (a v : Word) :
    memRead (memWrite m a .word v) a .word = v :=
  memRead_memWrite h a .word v

section NarrowRead
variable {m : Memory} (h : m.wf = true) (a : Word) (w : Width) (v : Word) {k : Nat}
include h

/-- Byte `k` of a written value, read alone (20_memory.md R52). -/
theorem memRead_byte_memWrite (hk : k < w.bytes) :
    memRead (memWrite m a w v) (a + BitVec.ofNat 32 k) .byte = (v.extractLsb' (8 * k) 8).setWidth 32 := by
  rw [memRead, byteAt_memWrite h a w v hk]

/-- Bytes `k` and `k + 1` of a written value, read together (20_memory.md R52). -/
theorem memRead_half_memWrite (hk : k + 1 < w.bytes) :
    memRead (memWrite m a w v) (a + BitVec.ofNat 32 k) .half = (v.extractLsb' (8 * k) 16).setWidth 32 := by
  have haddr : a + BitVec.ofNat 32 k + 1#32 = a + BitVec.ofNat 32 (k + 1) := by
    rw [BitVec.ofNat_add, BitVec.add_assoc]
  rw [memRead, haddr, byteAt_memWrite h a w v hk, byteAt_memWrite h a w v (Nat.lt_of_succ_lt hk), Nat.mul_succ,
    BitVec.extractLsb'_append_extractLsb'_eq_extractLsb' rfl]

end NarrowRead

/-! ### The cycle of a store and of a load -/

/-- What `mem_admits` answers depends on the parameters alone (20_memory.md R66; log 6). -/
theorem memAdmits_of_params_eq {s t : State} (h : t.params = s.params) (a : Word) (w : Width) (k : AccessKind) :
    memAdmits t a w k = memAdmits s a w k := by
  simp [memAdmits, h]

/-- The cycle of a store that the memory admits (40 R102). -/
theorem runCycle_helperSt_of_admits {s : State} (hf : s.fatal = false) {ea : Word} {w : Width}
    (ha : memAdmits s ea w .write = true) (v : Word) :
    runCycle (helperSt w ea v) s = .next (endCycle (emit (.memWrite ea (storeBytes w v))
      { beginCycle s with mem := memWrite s.mem ea w v })) :=
  runCycle_of_ok hf (storeMemory_of_admits ha)

/-- The cycle of a zero-extending load that the memory admits (40 R101). -/
theorem runCycle_helperLd_of_admits {s : State} (hf : s.fatal = false) {ea : Word} {w : Width}
    (ha : memAdmits s ea w .read = true) (rd : RegIdx) :
    runCycle (helperLd w rd ea) s =
      .next (endCycle (setRegister rd (memRead s.mem ea w) (emit (.memRead ea w) (beginCycle s)))) :=
  runCycle_of_ok hf (helperLd_of_admits ha)

/-- What the next cycle finds after a store: the value written, `pc` advanced by 4, the latch clear, and the same
parameters (43_stores.md R144). -/
theorem exists_runCycle_helperSt {s : State} (hf : s.fatal = false) {ea : Word} {w : Width}
    (ha : memAdmits s ea w .write = true) (v : Word) :
    ∃ t, runCycle (helperSt w ea v) s = .next t ∧ t.mem = memWrite s.mem ea w v ∧ t.pc = s.pc + 4#32 ∧
      t.fatal = false ∧ t.params = s.params :=
  ⟨_, runCycle_helperSt_of_admits hf ha v, endCycle_mem _, endCycle_pc_of_none _ rfl, by simpa using hf, by simp⟩

/-- A load leaves in its destination what it read, and 0 in register 0 (40 R104). -/
theorem exists_runCycle_helperLd {s : State} (hf : s.fatal = false) {ea : Word} {w : Width}
    (ha : memAdmits s ea w .read = true) (rd : RegIdx) :
    ∃ t, runCycle (helperLd w rd ea) s = .next t ∧
      readReg t rd = if rd = 0 then 0#32 else memRead s.mem ea w := by
  refine ⟨_, runCycle_helperLd_of_admits hf ha rd, ?_⟩
  by_cases h0 : rd = 0
  · simp [h0]
  · simp [h0, readReg_setRegister_self]

/-! ### The front end's fetch -/

theorem fetchWord_of_admits {s : State} (h : memAdmits s s.pc .word .read = true) :
    fetchWord s = .ok (memRead s.mem s.pc .word) := by
  simp [fetchWord, h]

theorem fetchWord_of_refused {s : State} (h : memAdmits s s.pc .word .read = false) :
    fetchWord s = .error (.fetchNotAdmitted s.pc) := by
  simp [fetchWord, h]

/-- A front end whose fetch fails offers no instruction. -/
theorem nextOffer_of_fetch_error {s : State} {f : Fault} (hs : s.supply = .frontEnd) (h : fetchWord s = .error f) :
    nextOffer s = .stuck f := by
  simp [nextOffer, hs, h]

/-- An unlatched block, no reset asserted, has no outcome where its supply is stuck (20_memory.md R66). -/
theorem step_of_nextOffer_stuck {s : State} {f : Fault} (hr : s.resetReq = false) (hf : s.fatal = false)
    (h : nextOffer s = .stuck f) : step s = .fault f := by
  simp [step, hr, hf, h]

/-! ### The obligations -/

/-- Settles O30: the load finds the memory that the store left, and an access that is still admitted. -/
theorem storeThenLoadReturnsTheWord : Obligations.StoreThenLoadReturnsTheWord := by
  intro rd ea data s hf hwf hwrite hread
  obtain ⟨t, hst, hmem, -, hft, hparams⟩ := exists_runCycle_helperSt hf hwrite data
  obtain ⟨u, hld, hrd⟩ := exists_runCycle_helperLd hft ((memAdmits_of_params_eq hparams ..).trans hread) rd
  rw [hmem, memRead_word_memWrite hwf] at hrd
  exact ⟨t, u, hst, hld, hrd⟩

/-- Settles O31: the bytes 0 and 1 and the halves at 0 and 2 of the four bytes written. -/
theorem narrowReadsOfAWrittenWord : Obligations.NarrowReadsOfAWrittenWord := by
  intro m a v hwf
  have hbyte := fun k => memRead_byte_memWrite hwf a .word v (k := k)
  have hhalf := fun k => memRead_half_memWrite hwf a .word v (k := k)
  refine ⟨?_, hbyte 1 (by decide), ?_, hhalf 2 (by decide)⟩
  · simpa using hbyte 0 (by decide)
  · simpa using hhalf 0 (by decide)

/-- Settles O32: the store advances `pc` to the address it wrote, and the fetch there reads memory as it left it. -/
theorem storedWordIsFetched : Obligations.StoredWordIsFetched := by
  intro rs2 rs1 off s hf hwf hea hwrite hread
  obtain ⟨t, hst, hmem, hpc, -, hparams⟩ := exists_runCycle_helperSt hf hwrite (readReg s rs2)
  refine ⟨t, ?_, ?_⟩
  · rw [exec_rvSw, guestEa_eq, hea, hst]
  · rw [fetchWord_of_admits, hmem, hpc, memRead_word_memWrite hwf]
    rw [hpc, memAdmits_of_params_eq hparams, hread]

/-- Settles O13: the refused fetch leaves the front end stuck. -/
theorem refusedFetchHasNoOutcome : Obligations.RefusedFetchHasNoOutcome := by
  intro s hr hf hs hrefused
  exact step_of_nextOffer_stuck hr hf (nextOffer_of_fetch_error hs (fetchWord_of_refused hrefused))

end Sys2Proof.Machine

/-! The encodings (30_encoding.md R70 to R91): decoder and encoder of records and of guest words, and the opcode
table's rows. -/

namespace Sys2Proof

/-! ### Records: one equation per family tag (30_encoding.md R76) -/

/-- The `LD` instruction of a width. -/
def loadOf : Width → RegIdx → Word → Instr
  | .word, rd, ea => .ld4 rd ea
  | .half, rd, ea => .ld2 rd ea
  | .byte, rd, ea => .ld1 rd ea

/-- The `ST` instruction of a width. -/
def storeOf : Width → Word → Word → Instr
  | .word, ea, data => .st4 ea data
  | .half, ea, data => .st2 ea data
  | .byte, ea, data => .st1 ea data

section Tag
variable {d : Record}

theorem decodeRecord_of_jal (h : recOp d = 1#3) : decodeRecord d = .ok (.jal (recRd d) (recSrc1 d)) := by
  simp [decodeRecord, h]

theorem decodeRecord_of_jalr (h : recOp d = 2#3) :
    decodeRecord d = .ok (.jalr (recRd d) (recSrc1 d) (recSrc2 d)) := by
  simp [decodeRecord, h]

theorem decodeRecord_of_ld (h : recOp d = 3#3) :
    decodeRecord d = (decodeWidth (recWidth d)).map fun w => loadOf w (recRd d) (recSrc1 d) := by
  simp only [decodeRecord, h]
  rcases decodeWidth (recWidth d) with e | _ | _ | _ <;> rfl

theorem decodeRecord_of_st (h : recOp d = 4#3) :
    decodeRecord d = (decodeWidth (recWidth d)).map fun w => storeOf w (recSrc1 d) (recSrc2 d) := by
  simp only [decodeRecord, h]
  rcases decodeWidth (recWidth d) with e | _ | _ | _ <;> rfl

theorem decodeRecord_of_lh (h : recOp d = 5#3) : decodeRecord d = .ok (.lh (recRd d) (recSrc1 d)) := by
  simp [decodeRecord, h]

theorem decodeRecord_of_lb (h : recOp d = 6#3) : decodeRecord d = .ok (.lb (recRd d) (recSrc1 d)) := by
  simp [decodeRecord, h]

/-- Tags 0 and 7 are reserved (30_encoding.md R78). -/
theorem decodeRecord_of_reserved (h : recOp d = 0#3 ∨ recOp d = 7#3) : decodeRecord d = .error .reservedTag := by
  obtain h | h := h <;> simp [decodeRecord, h]

end Tag

section MkRecord
variable (w : BitVec 3) (rd : RegIdx) (src2 src1 : Word)

theorem decodeRecord_mkRecord_jal : decodeRecord (mkRecord 1#3 w rd src2 src1) = .ok (.jal rd src1) := by
  simp [decodeRecord_of_jal]

theorem decodeRecord_mkRecord_jalr : decodeRecord (mkRecord 2#3 w rd src2 src1) = .ok (.jalr rd src1 src2) := by
  simp [decodeRecord_of_jalr]

theorem decodeRecord_mkRecord_ld :
    decodeRecord (mkRecord 3#3 w rd src2 src1) = (decodeWidth w).map fun v => loadOf v rd src1 := by
  simp [decodeRecord_of_ld]

theorem decodeRecord_mkRecord_st :
    decodeRecord (mkRecord 4#3 w rd src2 src1) = (decodeWidth w).map fun v => storeOf v src1 src2 := by
  simp [decodeRecord_of_st]

theorem decodeRecord_mkRecord_lh : decodeRecord (mkRecord 5#3 w rd src2 src1) = .ok (.lh rd src1) := by
  simp [decodeRecord_of_lh]

theorem decodeRecord_mkRecord_lb : decodeRecord (mkRecord 6#3 w rd src2 src1) = .ok (.lb rd src1) := by
  simp [decodeRecord_of_lb]

end MkRecord

/-! ### The dispatch map's rows of a record -/

theorem tag_cases (op : BitVec 3) :
    op = 0#3 ∨ op = 1#3 ∨ op = 2#3 ∨ op = 3#3 ∨ op = 4#3 ∨ op = 5#3 ∨ op = 6#3 ∨ op = 7#3 := by
  revert op
  decide

/-- A supported width tag is the byte count (30_encoding.md R73). -/
theorem decodeWidth_eq_ok {w : BitVec 3} {v : Width} : decodeWidth w = .ok v ↔ w = BitVec.ofNat 3 v.bytes := by
  cases v <;> revert w <;> decide

/-- Any other width tag is rejected (30_encoding.md R79). -/
theorem decodeWidth_eq_error {w : BitVec 3} {e : DecodeError} (h : decodeWidth w = .error e) :
    e = .unsupportedWidth ∧ w ≠ 1#3 ∧ w ≠ 2#3 ∧ w ≠ 4#3 := by
  unfold decodeWidth at h
  split_ifs at h with h4 h2 h1
  cases h
  exact ⟨rfl, h1, h2, h4⟩

/-- Where the width is not looked at, the tag alone gives the rows. -/
theorem rowsSelected_of_tag {d : Record} {op : BitVec 3} {rows : List String} (htag : recOp d = op)
    (h : ∀ w, rowsSelected (.record (mkRecord op w 0 0 0)) = rows) : rowsSelected (.record d) = rows := by
  rw [rowsSelected_record, htag]
  exact h _

/-- `LD` and `ST` with an unsupported width have no row (30_encoding.md R79). -/
theorem rowsSelected_of_unsupportedWidth {d : Record} (htag : recOp d = 3#3 ∨ recOp d = 4#3) (h1 : recWidth d ≠ 1#3)
    (h2 : recWidth d ≠ 2#3) (h4 : recWidth d ≠ 4#3) : rowsSelected (.record d) = [] := by
  have h : ∀ op w, (op = 3#3 ∨ op = 4#3) → w ≠ 1#3 → w ≠ 2#3 → w ≠ 4#3 →
      rowsSelected (.record (mkRecord op w 0 0 0)) = [] := by decide
  rw [rowsSelected_record]
  exact h _ _ htag h1 h2 h4

/-- A record of the family `LD` or `ST`, whose instruction is `mk` of its width: one row, or rejected by its width. -/
theorem oneRow_or_unsupportedWidth {d : Record} {op : BitVec 3} {mk : Width → Instr} (htag : recOp d = op)
    (hop : op = 3#3 ∨ op = 4#3) (hdecode : decodeRecord d = (decodeWidth (recWidth d)).map mk)
    (hrow : ∀ v, rowsSelected (.record (mkRecord op (BitVec.ofNat 3 v.bytes) 0 0 0)) = [(mk v).mnemonic]) :
    (∃ i, decodeRecord d = .ok i ∧ rowsSelected (.record d) = [i.mnemonic]) ∨
    (rowsSelected (.record d) = [] ∧ decodeRecord d = .error .unsupportedWidth ∧
      (recOp d = 3#3 ∨ recOp d = 4#3) ∧ recWidth d ≠ 1#3 ∧ recWidth d ≠ 2#3 ∧ recWidth d ≠ 4#3) := by
  rw [← htag] at hop
  cases hw : decodeWidth (recWidth d) with
  | ok v =>
    refine .inl ⟨mk v, by rw [hdecode, hw]; rfl, ?_⟩
    rw [rowsSelected_record, htag, decodeWidth_eq_ok.mp hw, hrow]
  | error e =>
    obtain ⟨rfl, h1, h2, h4⟩ := decodeWidth_eq_error hw
    exact .inr ⟨rowsSelected_of_unsupportedWidth hop h1 h2 h4, by rw [hdecode, hw]; rfl, hop, h1, h2, h4⟩

/-! ### Guest words: a word is made up of its fields -/

section Fields
variable (w : BitVec 32)

/-- The offset of the J format, cut as the format writes it (30_encoding.md R89, R90). -/
theorem gImmJ_slices :
    (gImmJ w).extractLsb' 20 1 = w.extractLsb' 31 1 ∧ (gImmJ w).extractLsb' 1 10 = w.extractLsb' 21 10 ∧
    (gImmJ w).extractLsb' 11 1 = w.extractLsb' 20 1 ∧ (gImmJ w).extractLsb' 12 8 = w.extractLsb' 12 8 := by
  refine ⟨?_, ?_, ?_, ?_⟩ <;>
    simp (disch := decide) only [gImmJ, BitVec.extractLsb'_append_eq_of_le, BitVec.extractLsb'_append_eq_of_add_le,
      BitVec.extractLsb'_eq_self, Nat.reduceSub]

/-- The jump offset is always even (30_encoding.md R89). -/
theorem getLsbD_zero_gImmJ : (gImmJ w).getLsbD 0 = false := by
  simp only [gImmJ, BitVec.getLsbD_append]
  rfl

theorem encodeJ_fields : encodeJ (gImmJ w) (gRd w) (gOpcode w) = w := by
  obtain ⟨h20, h1, h11, h12⟩ := gImmJ_slices w
  rw [encodeJ, h20, h1, h11, h12]
  simp only [gRd, gOpcode, BitVec.ofFin_toFin]
  iterate 5 rw [BitVec.extractLsb'_append_extractLsb'_eq_extractLsb' (by rfl)]
  exact BitVec.extractLsb'_eq_self

theorem encodeI_fields : encodeI (gImmI w) (gRs1 w) (gFunct3 w) (gRd w) (gOpcode w) = w := by
  simp only [encodeI, gImmI, gRs1, gFunct3, gRd, gOpcode, BitVec.ofFin_toFin]
  iterate 4 rw [BitVec.extractLsb'_append_extractLsb'_eq_extractLsb' (by rfl)]
  exact BitVec.extractLsb'_eq_self

theorem encodeS_fields : encodeS (gImmS w) (gRs2 w) (gRs1 w) (gFunct3 w) (gOpcode w) = w := by
  simp only [encodeS, gImmS, gRs2, gRs1, gFunct3, gOpcode, BitVec.ofFin_toFin, BitVec.extractLsb'_append_eq_left,
    BitVec.extractLsb'_append_eq_right]
  iterate 5 rw [BitVec.extractLsb'_append_extractLsb'_eq_extractLsb' (by rfl)]
  exact BitVec.extractLsb'_eq_self

end Fields

section Format
variable {w : BitVec 32} {f : BitVec 3} {o : BitVec 7}

theorem encodeJ_eq (ho : gOpcode w = o) : encodeJ (gImmJ w) (gRd w) o = w := by
  rw [← ho, encodeJ_fields]

theorem encodeI_eq (ho : gOpcode w = o) (hf : gFunct3 w = f) : encodeI (gImmI w) (gRs1 w) f (gRd w) o = w := by
  rw [← ho, ← hf, encodeI_fields]

theorem encodeS_eq (ho : gOpcode w = o) (hf : gFunct3 w = f) :
    encodeS (gImmS w) (gRs2 w) (gRs1 w) f o = w := by
  rw [← ho, ← hf, encodeS_fields]

end Format

/-! ### Guest words: decoder, encoder and rows -/

/-- The J format is read back, for an even offset (30_encoding.md R89, R90). -/
theorem decodeGuest_encodeJ (rd : RegIdx) {off : BitVec 21} (h : off.getLsbD 0 = false) :
    decodeGuest (encodeJ off rd 0b1101111#7) = .ok (.rvJal rd off) := by
  simp [decodeGuest, gImmJ_encodeJ _ _ _ h]

/-- What the front end's map answers: an instruction that is well formed and encoded as the word (30_encoding.md R90),
or the one rejection (R91). -/
theorem decodeGuest_cases (w : BitVec 32) :
    (∃ i, decodeGuest w = .ok i ∧ i.wellFormed = true ∧ encode i = .guest w) ∨
      decodeGuest w = .error .unmappedWord := by
  unfold decodeGuest
  split_ifs with hjal hjalr hf hload hf0 hf1 hf2 hf4 hf5 hstore hf0 hf1 hf2
  · exact .inl ⟨_, rfl, beq_iff_eq.mpr (getLsbD_zero_gImmJ w), congrArg Code.guest (encodeJ_eq hjal)⟩
  · exact .inl ⟨_, rfl, rfl, congrArg Code.guest (encodeI_eq hjalr hf)⟩
  · exact .inr rfl
  · exact .inl ⟨_, rfl, rfl, congrArg Code.guest (encodeI_eq hload hf0)⟩
  · exact .inl ⟨_, rfl, rfl, congrArg Code.guest (encodeI_eq hload hf1)⟩
  · exact .inl ⟨_, rfl, rfl, congrArg Code.guest (encodeI_eq hload hf2)⟩
  · exact .inl ⟨_, rfl, rfl, congrArg Code.guest (encodeI_eq hload hf4)⟩
  · exact .inl ⟨_, rfl, rfl, congrArg Code.guest (encodeI_eq hload hf5)⟩
  · exact .inr rfl
  · exact .inl ⟨_, rfl, rfl, congrArg Code.guest (encodeS_eq hstore hf0)⟩
  · exact .inl ⟨_, rfl, rfl, congrArg Code.guest (encodeS_eq hstore hf1)⟩
  · exact .inl ⟨_, rfl, rfl, congrArg Code.guest (encodeS_eq hstore hf2)⟩
  · exact .inr rfl
  · exact .inr rfl

theorem encode_of_decodeGuest {w : BitVec 32} {i : Instr} (h : decodeGuest w = .ok i) :
    i.wellFormed = true ∧ encode i = .guest w := by
  obtain ⟨j, hj, henc⟩ | herr := decodeGuest_cases w
  · rw [hj] at h
    cases h
    exact henc
  · simp [herr] at h

/-- Every instruction's encoding selects its own row alone (30_encoding.md R76, R90). -/
theorem rowsSelected_encode (i : Instr) : Laws.EncodeSelectsRow.Statement i := by
  intro _
  cases i with
  | jal | jalr | ld4 | ld2 | ld1 | lh | lb | st4 | st2 | st1 => exact rowsSelected_mkRecord ..
  | rvJal => exact rowsSelected_encodeJ ..
  | rvJalr | rvLb | rvLh | rvLw | rvLbu | rvLhu => exact rowsSelected_encodeI ..
  | rvSb | rvSh | rvSw => exact rowsSelected_encodeS ..

theorem rowsSelected_of_decodeGuest {w : BitVec 32} {i : Instr} (h : decodeGuest w = .ok i) :
    rowsSelected (.guest w) = [i.mnemonic] := by
  obtain ⟨hwf, henc⟩ := encode_of_decodeGuest h
  rw [← henc]
  exact rowsSelected_encode i hwf

/-- Whether a word is mapped depends on its opcode and its `funct3` alone (30_encoding.md R90). -/
theorem decodeGuest_eq_unmappedWord_congr {w p : BitVec 32} (ho : gOpcode w = gOpcode p)
    (hf : gFunct3 w = gFunct3 p) :
    decodeGuest w = .error .unmappedWord ↔ decodeGuest p = .error .unmappedWord := by
  unfold decodeGuest
  rw [ho, hf]
  split_ifs <;> simp

/-- The rows of the I and S formats ask for an opcode and a `funct3` that the front end maps; the J row asks for its
opcode alone. -/
theorem guestRows_mask {r : OpcodeRow 32} (hr : r ∈ guestRows) :
    (r.mask = 0x0000707F#32 ∧ decodeGuest r.pattern ≠ .error .unmappedWord) ∨
      (r.mask = 0x0000007F#32 ∧ gOpcode r.pattern = 0b1101111#7) := by
  revert r
  decide

/-- The front end maps every word that a row selects. -/
theorem decodeGuest_ne_unmappedWord {w : BitVec 32} {r : OpcodeRow 32} (hr : r ∈ guestRows)
    (hsel : r.selectedBy w = true) : decodeGuest w ≠ .error .unmappedWord := by
  have hpattern : w &&& r.mask = r.pattern := eq_of_beq hsel
  obtain ⟨hmask, hmapped⟩ | ⟨hmask, hjal⟩ := guestRows_mask hr
  · rw [hmask, and_funct3Mask] at hpattern
    have ho : gOpcode w = gOpcode r.pattern := by rw [← hpattern, gOpcode_encodeI]
    have hf : gFunct3 w = gFunct3 r.pattern := by rw [← hpattern, gFunct3_encodeI]
    exact (decodeGuest_eq_unmappedWord_congr ho hf).not.mpr hmapped
  · rw [hmask, and_opcodeMask] at hpattern
    have ho : gOpcode w = 0b1101111#7 := by rw [← hjal, ← hpattern, gOpcode_encodeI]
    simp [decodeGuest, ho]

/-! ### The obligations on encodings -/

/-- Settles O1: a record is read back by its family's equation, a guest word by its format's. -/
theorem decodeOfEncode : Obligations.DecodeOfEncode := by
  intro i hwf
  cases i with
  | jal => exact decodeRecord_mkRecord_jal ..
  | jalr => exact decodeRecord_mkRecord_jalr ..
  | ld4 | ld2 | ld1 => exact decodeRecord_mkRecord_ld ..
  | lh => exact decodeRecord_mkRecord_lh ..
  | lb => exact decodeRecord_mkRecord_lb ..
  | st4 | st2 | st1 => exact decodeRecord_mkRecord_st ..
  | rvJal rd off => exact decodeGuest_encodeJ rd (beq_iff_eq.mp hwf)
  | rvJalr | rvLb | rvLh | rvLw | rvLbu | rvLhu => simp [encode, decode, decodeGuest]
  | rvSb | rvSh | rvSw => simp [encode, decode, decodeGuest]

/-- Settles O2: the tag decides, and for `LD` and `ST` the width. -/
theorem everyRecordSelectsOneRowOrIsRejected : Obligations.EveryRecordSelectsOneRowOrIsRejected := by
  intro d
  obtain h | h | h | h | h | h | h | h := tag_cases (recOp d)
  · exact .inr (.inl ⟨rowsSelected_of_tag h (by decide), decodeRecord_of_reserved (.inl h), .inl h⟩)
  · exact .inl ⟨_, decodeRecord_of_jal h, rowsSelected_of_tag (rows := ["jal"]) h (by decide)⟩
  · exact .inl ⟨_, decodeRecord_of_jalr h, rowsSelected_of_tag (rows := ["jalr"]) h (by decide)⟩
  · exact (oneRow_or_unsupportedWidth h (.inl rfl) (decodeRecord_of_ld h) fun v => by cases v <;> rfl).imp_right .inr
  · exact (oneRow_or_unsupportedWidth h (.inr rfl) (decodeRecord_of_st h) fun v => by cases v <;> rfl).imp_right .inr
  · exact .inl ⟨_, decodeRecord_of_lh h, rowsSelected_of_tag (rows := ["lh"]) h (by decide)⟩
  · exact .inl ⟨_, decodeRecord_of_lb h, rowsSelected_of_tag (rows := ["lb"]) h (by decide)⟩
  · exact .inr (.inl ⟨rowsSelected_of_tag h (by decide), decodeRecord_of_reserved (.inr h), .inr h⟩)

/-- Settles O4: the word is made up of the fields its instruction was read from, and an encoding selects its row. -/
theorem decodedGuestWordReencodes : Obligations.DecodedGuestWordReencodes := by
  intro w i h
  obtain ⟨hwf, henc⟩ := encode_of_decodeGuest h
  exact ⟨hwf, henc, rowsSelected_of_decodeGuest h⟩

/-- Settles O5: a row selects no word the front end rejects, and a word that it maps selects a row. -/
theorem unmappedGuestWordsAreThoseOfNoRow : Obligations.UnmappedGuestWordsAreThoseOfNoRow := by
  intro w
  constructor
  · intro herr
    have hnone : ∀ r ∈ guestRows, ¬ r.selectedBy w = true := fun r hr hsel =>
      decodeGuest_ne_unmappedWord hr hsel herr
    rw [rowsSelected, List.filter_eq_nil_iff.mpr hnone, List.map_nil]
  · intro hnone
    obtain ⟨i, hi, -⟩ | herr := decodeGuest_cases w
    · simp [rowsSelected_of_decodeGuest hi] at hnone
    · exact herr

/-- Settles O3: each family's equation reads no such field. -/
theorem unreadFieldsChangeNothing : Obligations.UnreadFieldsChangeNothing := by
  intro w w' rd rd' src2 src2' src1
  refine ⟨?_, ?_, ?_, ?_, ?_, ?_⟩
  · exact (decodeRecord_mkRecord_jal ..).trans (decodeRecord_mkRecord_jal ..).symm
  · exact (decodeRecord_mkRecord_jalr ..).trans (decodeRecord_mkRecord_jalr ..).symm
  · exact (decodeRecord_mkRecord_ld ..).trans (decodeRecord_mkRecord_ld ..).symm
  · exact (decodeRecord_mkRecord_st ..).trans (decodeRecord_mkRecord_st ..).symm
  · exact (decodeRecord_mkRecord_lh ..).trans (decodeRecord_mkRecord_lh ..).symm
  · exact (decodeRecord_mkRecord_lb ..).trans (decodeRecord_mkRecord_lb ..).symm

/-- Settles O6: the decoder evaluated on the nine words. -/
theorem sampleWordsDecode : Obligations.SampleWordsDecode := by
  unfold Obligations.SampleWordsDecode
  decide

end Sys2Proof

/-! The supply (30_encoding.md R70, R86 to R91; log 2, log 3): what the front end and the record port offer, and the
guest words as the records they are run as. -/

namespace Sys2Proof.Machine

/-! ### A guest word is run as its record -/

/-- The record an instruction runs as decodes to an instruction around the same helper (30_encoding.md R90). -/
theorem exists_decodeRecord_recordOf (i : Instr) (s : State) :
    ∃ j, decodeRecord (recordOf i s) = .ok j ∧ exec i s = exec j s := by
  cases i with
  | jal | rvJal => exact ⟨.jal .., decodeRecord_mkRecord_jal .., rfl⟩
  | jalr | rvJalr => exact ⟨.jalr .., decodeRecord_mkRecord_jalr .., rfl⟩
  | ld4 | rvLw => exact ⟨.ld4 .., decodeRecord_mkRecord_ld .., rfl⟩
  | ld2 | rvLhu => exact ⟨.ld2 .., decodeRecord_mkRecord_ld .., rfl⟩
  | ld1 | rvLbu => exact ⟨.ld1 .., decodeRecord_mkRecord_ld .., rfl⟩
  | lh | rvLh => exact ⟨.lh .., decodeRecord_mkRecord_lh .., rfl⟩
  | lb | rvLb => exact ⟨.lb .., decodeRecord_mkRecord_lb .., rfl⟩
  | st4 | rvSw => exact ⟨.st4 .., decodeRecord_mkRecord_st .., rfl⟩
  | st2 | rvSh => exact ⟨.st2 .., decodeRecord_mkRecord_st .., rfl⟩
  | st1 | rvSb => exact ⟨.st1 .., decodeRecord_mkRecord_st .., rfl⟩

/-! ### No instruction looks at the supply -/

/-- The state with another supply. -/
def withSupply (q : Supply) (s : State) : State := { s with supply := q }

/-- The outcome with `f` applied to the next state. -/
def mapNext (f : State → State) : Host.Outcome State Fault Refusal → Host.Outcome State Fault Refusal
  | .next s => .next (f s)
  | .fault e => .fault e
  | .refused r => .refused r

/-- The helper does the same whatever the supply is. -/
def IgnoresSupply (helper : State → Except Fault State) : Prop :=
  ∀ q s, helper (withSupply q s) = (helper s).map (withSupply q)

section WithSupply
variable (q : Supply) (s : State)

theorem setRegister_withSupply (i : RegIdx) (v : Word) :
    setRegister i v (withSupply q s) = withSupply q (setRegister i v s) := by
  unfold setRegister
  split <;> rfl

theorem withSupply_withSupply (q' : Supply) : withSupply q (withSupply q' s) = withSupply q s := rfl

theorem withSupply_eq_self {q : Supply} {s : State} (h : s.supply = q) : withSupply q s = s := by
  subst h
  rfl

theorem endCycle_withSupply : endCycle (withSupply q s) = withSupply q (endCycle s) := by
  unfold endCycle withSupply
  cases s.pending <;> rfl

theorem loadMemory_withSupply (a : Word) (w : Width) :
    loadMemory a w (withSupply q s) = (loadMemory a w s).map (Prod.map id (withSupply q)) := by
  have hadmits : memAdmits (withSupply q s) a w .read = memAdmits s a w .read := rfl
  unfold loadMemory
  rw [hadmits]
  split <;> rfl

end WithSupply

theorem helperJal_ignoresSupply (rd : RegIdx) (imm : Word) : IgnoresSupply (helperJal rd imm) := fun q s => by
  rw [helperJal_eq, helperJal_eq, setRegister_withSupply]
  rfl

theorem helperJalr_ignoresSupply (rd : RegIdx) (base off : Word) : IgnoresSupply (helperJalr rd base off) :=
  fun q s => by
    rw [helperJalr_eq, helperJalr_eq, setRegister_withSupply]
    rfl

theorem helperLd_ignoresSupply (w : Width) (rd : RegIdx) (ea : Word) : IgnoresSupply (helperLd w rd ea) :=
  fun q s => by
    rw [helperLd, helperLd, loadMemory_withSupply]
    rcases loadMemory ea w s with e | ⟨v, t⟩
    · rfl
    · exact congrArg Except.ok (setRegister_withSupply q t ..)

theorem helperLdSigned_ignoresSupply (w : Width) (rd : RegIdx) (ea : Word) : IgnoresSupply (helperLdSigned w rd ea) :=
  fun q s => by
    rw [helperLdSigned, helperLdSigned, loadMemory_withSupply]
    rcases loadMemory ea w s with e | ⟨v, t⟩
    · rfl
    · exact congrArg Except.ok (setRegister_withSupply q t ..)

theorem helperSt_ignoresSupply (w : Width) (ea data : Word) : IgnoresSupply (helperSt w ea data) := fun q s => by
  have hadmits : memAdmits (withSupply q s) ea w .write = memAdmits s ea w .write := rfl
  unfold helperSt storeMemory
  rw [hadmits]
  split <;> rfl

theorem runCycle_withSupply {f : State → Except Fault State} (h : IgnoresSupply f) (q : Supply) (s : State) :
    runCycle f (withSupply q s) = mapNext (withSupply q) (runCycle f s) := by
  have hbegin : f (beginCycle (withSupply q s)) = (f (beginCycle s)).map (withSupply q) := h q (beginCycle s)
  cases hf : s.fatal with
  | true =>
    rw [runCycle_of_fatal hf, runCycle_of_fatal (s := withSupply q s) hf]
    rfl
  | false =>
    cases hu : f (beginCycle s) with
    | ok u =>
      rw [hu] at hbegin
      rw [runCycle_of_ok hf hu, runCycle_of_ok (s := withSupply q s) hf hbegin, endCycle_withSupply]
      rfl
    | error e =>
      rw [hu] at hbegin
      rw [runCycle_of_error hf hu, runCycle_of_error (s := withSupply q s) hf hbegin]
      rfl

/-- An instruction does the same whatever the supply is, which it leaves as it is. -/
theorem exec_withSupply (i : Instr) (q : Supply) (s : State) :
    exec i (withSupply q s) = mapNext (withSupply q) (exec i s) := by
  cases i with
  | jal | rvJal => exact runCycle_withSupply (helperJal_ignoresSupply _ _) q s
  | jalr | rvJalr => exact runCycle_withSupply (helperJalr_ignoresSupply _ _ _) q s
  | ld4 | ld2 | ld1 | rvLw | rvLbu | rvLhu => exact runCycle_withSupply (helperLd_ignoresSupply _ _ _) q s
  | lh | lb | rvLb | rvLh => exact runCycle_withSupply (helperLdSigned_ignoresSupply _ _ _) q s
  | st4 | st2 | st1 | rvSb | rvSh | rvSw => exact runCycle_withSupply (helperSt_ignoresSupply _ _ _) q s

/-! ### What is offered -/

theorem step_of_reset {s : State} (hr : s.resetReq = true) : step s = .next (resetBlock s) := by
  simp [step, hr]

theorem step_of_fatal {s : State} (hr : s.resetReq = false) (hf : s.fatal = true) :
    step s = .fault (.fatalLatched s.fatalKind) := by
  simp [step, hr, hf]

/-- An unlatched block, no reset asserted, enters the fatal state where what is offered is Fatal. -/
theorem step_of_nextOffer_fatal {s : State} {k : FatalKind} (hr : s.resetReq = false) (hf : s.fatal = false)
    (h : nextOffer s = .fatal k) : step s = .next (takeFatal k s) := by
  simp [step, hr, hf, h]

theorem nextOffer_of_record_error {s : State} {d : Record} {rest : List Record} {e : DecodeError}
    (hs : s.supply = .records (d :: rest)) (hd : decodeRecord d = .error e) :
    nextOffer s = .fatal (fatalKindOf e) := by
  simp [nextOffer, hs, hd]

theorem frontEndRecord_of_ok {w : BitVec 32} {i : Instr} (h : decodeGuest w = .ok i) (s : State) :
    frontEndRecord w s = recordOf i s := by
  simp [frontEndRecord, h]

theorem frontEndRecord_of_error {w : BitVec 32} {e : DecodeError} (h : decodeGuest w = .error e) (s : State) :
    frontEndRecord w s = 0#75 := by
  simp [frontEndRecord, h]

section FrontEnd
variable {s : State} {w : BitVec 32} (hs : s.supply = .frontEnd) (hw : fetchWord s = .ok w)
include hs hw

theorem nextOffer_of_guest {i : Instr} (hi : decodeGuest w = .ok i) : nextOffer s = .run i s := by
  simp [nextOffer, hs, hw, hi]

theorem nextOffer_of_guest_error {e : DecodeError} (he : decodeGuest w = .error e) :
    nextOffer s = .fatal (fatalKindOf e) := by
  simp [nextOffer, hs, hw, he]

/-- A word that the front end maps is run as the record built from it. -/
theorem step_frontEnd_of_mapped (hr : s.resetReq = false) (hf : s.fatal = false) {i : Instr}
    (hi : decodeGuest w = .ok i) :
    step s = mapNext (withSupply .frontEnd) (step (withSupply (.records [frontEndRecord w s]) s)) := by
  obtain ⟨j, hj, hexec⟩ := exists_decodeRecord_recordOf i s
  have hrecord : step (withSupply (.records [recordOf i s]) s) = exec j (withSupply (.records []) s) :=
    step_of_nextOffer_run hr hf (nextOffer_of_record rfl hj)
  calc step s = exec i s := step_of_nextOffer_run hr hf (nextOffer_of_guest hs hw hi)
    _ = exec j (withSupply .frontEnd (withSupply (.records []) s)) := by
      rw [withSupply_withSupply, withSupply_eq_self hs, hexec]
    _ = mapNext (withSupply .frontEnd) (step (withSupply (.records [frontEndRecord w s]) s)) := by
      rw [exec_withSupply, ← hrecord, frontEndRecord_of_ok hi]

/-- A word that the front end does not map is Fatal as the record with tag 0 is (30_encoding.md R91). -/
theorem step_frontEnd_of_unmapped (hr : s.resetReq = false) (hf : s.fatal = false)
    (he : decodeGuest w = .error .unmappedWord) :
    step s = mapNext (withSupply .frontEnd) (step (withSupply (.records [frontEndRecord w s]) s)) := by
  have hrecord : step (withSupply (.records [0#75]) s) =
      .next (takeFatal .unreachableDecode (withSupply (.records [0#75]) s)) :=
    step_of_nextOffer_fatal hr hf (nextOffer_of_record_error rfl (decodeRecord_of_reserved (.inl rfl)))
  calc step s = .next (takeFatal .unreachableDecode s) :=
      step_of_nextOffer_fatal hr hf (nextOffer_of_guest_error hs hw he)
    _ = .next (takeFatal .unreachableDecode (withSupply .frontEnd s)) := by rw [withSupply_eq_self hs]
    _ = mapNext (withSupply .frontEnd) (step (withSupply (.records [frontEndRecord w s]) s)) := by
      rw [frontEndRecord_of_error he, hrecord]
      rfl

/-- The front end is a supply of records: its step is the step with the record it builds, but for the supply. -/
theorem step_frontEnd_eq_step_record :
    step s = mapNext (withSupply .frontEnd) (step (withSupply (.records [frontEndRecord w s]) s)) := by
  cases hr : s.resetReq with
  | true =>
    rw [step_of_reset hr, step_of_reset (s := withSupply (.records [frontEndRecord w s]) s) hr, mapNext,
      ← hs]
    rfl
  | false =>
    cases hf : s.fatal with
    | true =>
      rw [step_of_fatal hr hf, step_of_fatal (s := withSupply (.records [frontEndRecord w s]) s) hr hf]
      rfl
    | false =>
      obtain ⟨i, hi, -⟩ | he := decodeGuest_cases w
      · exact step_frontEnd_of_mapped hs hw hr hf hi
      · exact step_frontEnd_of_unmapped hs hw hr hf he

end FrontEnd

/-! ### The state that stands for a loaded word -/

theorem placeRecord_eq (d : Record) (s : State) :
    ∃ rest, placeRecord d s = { s with supply := .records (d :: rest), resetReq := false } := by
  unfold placeRecord
  split
  · exact ⟨_, rfl⟩
  · exact ⟨[], rfl⟩

theorem eq_ok_of_toOption {x : Except DecodeError Instr} {i : Instr} (h : x.toOption = some i) : x = .ok i := by
  cases x with
  | ok j => exact congrArg Except.ok (Option.some.inj h)
  | error e => cases h

/-- A record put at the record input runs next, and is taken from it. -/
theorem exists_step_placeRecord {s : State} (hf : s.fatal = false) {d : Record} {i : Instr}
    (hd : decodeRecord d = .ok i) :
    ∃ u, step (placeRecord d s) = exec i u ∧ u.pc = s.pc ∧ SameRegs s u ∧ u.params = s.params := by
  obtain ⟨rest, hplace⟩ := placeRecord_eq d s
  rw [hplace]
  exact ⟨_, step_of_nextOffer_run rfl hf (nextOffer_of_record rfl hd), rfl, fun _ => rfl, rfl⟩

/-- A guest word stored at `pc` is fetched from there. -/
theorem fetchWord_placeGuestWord {s : State} (hwf : s.mem.wf = true) (ha : memAdmits s s.pc .word .read = true)
    (w : BitVec 32) : fetchWord (placeGuestWord w s) = .ok w := by
  rw [fetchWord_of_admits (s := placeGuestWord w s) ha]
  exact congrArg Except.ok (memRead_word_memWrite hwf s.pc w)

/-- A guest word stored at `pc` runs next. -/
theorem exists_step_placeGuestWord {s : State} (hwf : s.mem.wf = true) (hf : s.fatal = false)
    (ha : memAdmits s s.pc .word .read = true) {w : BitVec 32} {i : Instr} (hd : decodeGuest w = .ok i) :
    ∃ u, step (placeGuestWord w s) = exec i u ∧ u.pc = s.pc ∧ SameRegs s u ∧ u.params = s.params :=
  ⟨_, step_of_nextOffer_run rfl hf (nextOffer_of_guest rfl (fetchWord_placeGuestWord hwf ha w) hd), rfl,
    fun _ => rfl, rfl⟩

/-! ### The Fatal outcome -/

/-- Fatal entry commits nothing (60_exceptions.md R162). -/
theorem fatalDone_takeFatal (k : FatalKind) (s : State) : FatalDone s (takeFatal k s) k.code :=
  ⟨rfl, rfl, rfl, fun _ => rfl, fun _ => rfl, rfl, rfl, rfl, rfl, rfl⟩

/-! ### The cycle of a load and of a store, whole -/

/-- What a completed load leaves (42_loads.md R130 to R136). -/
theorem loadDone_endCycle (s : State) (rd : RegIdx) (ea : Word) (w : Width) (v : Word) :
    LoadDone s (endCycle (setRegister rd v (emit (.memRead ea w) (beginCycle s)))) rd ea w v := by
  refine ⟨?dest, fun j hj => ?others, fun a => by simp [byteOf], ?pc, endCycle_pending _, by simp,
    by simp [SameSurroundings]⟩
  case dest =>
    by_cases h0 : rd = 0
    · simp [h0]
    · simp [h0, readReg_setRegister_self]
  case others => simp [readReg_setRegister_ne _ _ hj]
  case pc =>
    rw [endCycle_pc_of_none _ (by simp)]
    simp [add32]

section Rules
variable {s : State} (hf : s.fatal = false) {i : Instr} {w : Width} {ea : Word}
include hf

/-- A zero-extending load obeys its rule with the value that it reads. -/
theorem loadRule_of_helperLd {rd : RegIdx} (hi : exec i s = runCycle (helperLd w rd ea) s) :
    LoadRule i s rd ea w (memRead s.mem ea w) := by
  rw [LoadRule, hi]
  exact ⟨fun ha => ⟨_, runCycle_helperLd_of_admits hf ha rd, loadDone_endCycle ..⟩,
    fun hr => runCycle_of_error hf (helperLd_of_refused hr)⟩

/-- A sign-extending load obeys its rule with the value that it reads, extended. -/
theorem loadRule_of_helperLdSigned {rd : RegIdx} (hi : exec i s = runCycle (helperLdSigned w rd ea) s) :
    LoadRule i s rd ea w (signExtendTo (memRead s.mem ea w) w) := by
  rw [LoadRule, hi]
  exact ⟨fun ha => ⟨_, runCycle_of_ok hf (helperLdSigned_of_admits ha), loadDone_endCycle ..⟩,
    fun hr => runCycle_of_error hf (helperLdSigned_of_refused hr)⟩

end Rules

/-- The bytes of a store, as the rules write them (20_memory.md R52). -/
theorem storeBytes_eq_map (w : Width) (v : Word) :
    storeBytes w v = (List.range w.bytes).map fun k => v.extractLsb' (8 * k) 8 := by
  cases w <;> rfl

/-- What a completed store leaves (43_stores.md R140 to R142). -/
theorem storeDone_endCycle {s : State} (hwf : s.mem.wf = true) (ea : Word) (w : Width) (v : Word) :
    StoreDone s (endCycle (emit (.memWrite ea (storeBytes w v)) { beginCycle s with mem := memWrite s.mem ea w v }))
      ea w v := by
  refine ⟨fun k hk => ?written, fun a ha => ?others, fun j => ?regs, endCycle_pc_of_none _ rfl, endCycle_pending _,
    by simp [storeBytes_eq_map], by simp [SameSurroundings]⟩
  case written => simpa [byteOf] using byteAt_memWrite hwf ea w v hk
  case others =>
    have hout : ∀ x ∈ accessAddrs ea w, x.toNat ≠ a.toNat := fun x hx hxa => by
      obtain ⟨k, hk, rfl⟩ := mem_accessAddrs.mp hx
      exact ha k hk (BitVec.eq_of_toNat_eq hxa).symm
    simpa [byteOf] using byteAt_memWrite_of_not_mem hwf ea w v hout
  case regs => exact endCycle_readReg _ j

/-- A store obeys its rule. -/
theorem storeRule_of_helperSt {s : State} (hf : s.fatal = false) (hwf : s.mem.wf = true) {i : Instr} {w : Width}
    {ea v : Word} (hi : exec i s = runCycle (helperSt w ea v) s) : StoreRule i s ea w v := by
  rw [StoreRule, hi]
  exact ⟨fun ha => ⟨_, runCycle_helperSt_of_admits hf ha v, storeDone_endCycle hwf ea w v⟩,
    fun hr => runCycle_of_error hf (storeMemory_of_refused hr)⟩

/-! ### The values of the five loads, by the bytes -/

section Bytes
variable (s : State) (ea : Word)

theorem memRead_word_eq : memRead s.mem ea .word =
    byteOf s (ea + 3#32) ++ byteOf s (ea + 2#32) ++ byteOf s (ea + 1#32) ++ byteOf s ea := rfl

theorem memRead_half_eq : memRead s.mem ea .half = 0#16 ++ byteOf s (ea + 1#32) ++ byteOf s ea := by
  rw [BitVec.append_assoc]
  exact BitVec.setWidth_eq_append (by decide)

theorem memRead_byte_eq : memRead s.mem ea .byte = 0#24 ++ byteOf s ea :=
  BitVec.setWidth_eq_append (by decide)

theorem signExtendTo_memRead_half :
    signExtendTo (memRead s.mem ea .half) .half = (byteOf s (ea + 1#32) ++ byteOf s ea).signExtend 32 := by
  simp [signExtendTo, sext, memRead, byteOf]

theorem signExtendTo_memRead_byte :
    signExtendTo (memRead s.mem ea .byte) .byte = (byteOf s ea).signExtend 32 := by
  simp [signExtendTo, sext, memRead, byteOf]

end Bytes

/-! ### The obligations on supplies and guest words -/

/-- Settles O10: the records of 30_encoding.md R90, row by row. -/
theorem instructionDoesWhatItsRecordDoes : Obligations.InstructionDoesWhatItsRecordDoes :=
  exists_decodeRecord_recordOf

/-- Settles O9: the two outcomes are one but for the supply. -/
theorem frontEndStepIsTheRecordStep : Obligations.FrontEndStepIsTheRecordStep := by
  rintro s s' w hs hw rfl
  have hstep := step_frontEnd_eq_step_record hs hw
  rw [withSupply] at hstep
  rw [hstep]
  cases step { s with supply := .records [frontEndRecord w s] } with
  | next t => simp [mapNext, withSupply, eq_comm]
  | fault e => simp [mapNext]
  | refused r => simp [mapNext]

/-- Settles O11: a word of at most 32 bits is fetched at `pc`, a record is next at the record input. -/
theorem loadedWordRunsNext : Obligations.LoadedWordRunsNext := by
  intro s nbits w i hwf hf ha hd
  unfold decodeTableWord at hd
  unfold State.withFetchWord
  split
  · next hn =>
    rw [if_pos hn] at hd
    exact exists_step_placeGuestWord hwf hf ha (eq_ok_of_toOption hd)
  · next hn =>
    rw [if_neg hn] at hd
    exact exists_step_placeRecord hf (eq_ok_of_toOption hd)

/-- Settles O8: the fetch reads the four bytes, and the block runs what they decode to. -/
theorem stepRunsTheGuestWordAtPc : Obligations.StepRunsTheGuestWordAtPc := by
  intro s i hr hf hs ha hd
  exact step_of_nextOffer_run hr hf (nextOffer_of_guest hs (fetchWord_of_admits ha) hd)

/-- Settles O17: the guest `jal` is the cycle of `jal`. -/
theorem guestJalLinksAndJumps : Obligations.GuestJalLinksAndJumps :=
  fun rd off _ hf => runCycle_helperJal hf rd (immJ off)

/-- Settles O18: the guest `jalr` is the cycle of `jalr`, its base read before the cycle. -/
theorem guestJalrUsesTheOldBase : Obligations.GuestJalrUsesTheOldBase :=
  fun rd rs1 off s hf => runCycle_helperJalr hf rd (readReg s rs1) (imm12 off)

/-- Settles O25: each guest load is the cycle of its record's helper at the effective address. -/
theorem guestLoadsReadAtBasePlusOffset : Obligations.GuestLoadsReadAtBasePlusOffset := by
  rintro rd rs1 off ea s hf rfl
  rw [← guestEa_eq, ← signExtendTo_memRead_byte, ← signExtendTo_memRead_half, ← memRead_word_eq, ← memRead_byte_eq,
    ← memRead_half_eq]
  exact ⟨loadRule_of_helperLdSigned hf (exec_rvLb ..), loadRule_of_helperLdSigned hf (exec_rvLh ..),
    loadRule_of_helperLd hf (exec_rvLw ..), loadRule_of_helperLd hf (exec_rvLbu ..),
    loadRule_of_helperLd hf (exec_rvLhu ..)⟩

/-- Settles O29: each guest store is the cycle of its record's helper at the effective address. -/
theorem guestStoresWriteAtBasePlusOffset : Obligations.GuestStoresWriteAtBasePlusOffset := by
  rintro rs2 rs1 off ea s hf hwf rfl
  exact ⟨storeRule_of_helperSt hf hwf (exec_rvSb ..), storeRule_of_helperSt hf hwf (exec_rvSh ..),
    storeRule_of_helperSt hf hwf (exec_rvSw ..)⟩

/-- Settles O37: a reserved tag and a word of no row are both rejected as `UnreachableDecode`. -/
theorem unknownInstructionIsFatal : Obligations.UnknownInstructionIsFatal := by
  refine fun s hr hf => ⟨fun d rest hs htag => ?record, fun w hs hw hrows => ?guest⟩
  case record =>
    exact ⟨_, step_of_nextOffer_fatal hr hf (nextOffer_of_record_error hs (decodeRecord_of_reserved htag)),
      fatalDone_takeFatal .unreachableDecode s⟩
  case guest =>
    have herr := (unmappedGuestWordsAreThoseOfNoRow w).mpr hrows
    exact ⟨_, step_of_nextOffer_fatal hr hf (nextOffer_of_guest_error hs hw herr),
      fatalDone_takeFatal .unreachableDecode s⟩

end Sys2Proof.Machine

/-! The primitives and the cycle (40_cycle_and_primitives.md R100 to R107): what each primitive computes, and which
outputs and faults a cycle can have. -/

namespace Sys2Proof.Machine

/-! ### Extension -/

/-- The low `n` bits of a word, extended as a signed number: the top one of them is copied. -/
theorem getLsbD_signExtend_setWidth {n k : Nat} (v : Word) (hn : 0 < n) (hk : k < 32) :
    ((v.setWidth n).signExtend 32).getLsbD k = if k < n then v.getLsbD k else v.getLsbD (n - 1) := by
  have hmsb : (v.setWidth n).msb = v.getLsbD (n - 1) := by simp [BitVec.msb_eq_getLsbD_last, hn]
  rw [BitVec.getLsbD_signExtend, hmsb]
  split
  · next hlow => simp [hk, hlow]
  · simp [hk]

/-! ### No cycle while the latch is set, and none sets it -/

/-- No instruction runs while the latch is set (40_cycle_and_primitives.md R100). -/
theorem exec_of_fatal {s : State} (hf : s.fatal = true) (i : Instr) :
    exec i s = .fault (.fatalLatched s.fatalKind) := by
  obtain ⟨f, hcycle, -⟩ := exec_eq_runCycle i s
  rw [hcycle, runCycle_of_fatal hf]

/-- A cycle that completes leaves the latch clear, as it found it. -/
theorem exec_fatal {i : Instr} {s t : State} (h : exec i s = .next t) : t.fatal = false := by
  obtain ⟨hf, u, hu, rfl⟩ := exec_effect h
  simp [hu.fatal, hf]

theorem exec_fatalKind {i : Instr} {s t : State} (h : exec i s = .next t) : t.fatalKind = s.fatalKind := by
  obtain ⟨-, u, hu, rfl⟩ := exec_effect h
  simp [hu.fatalKind]

/-! ### The skip event -/

/-- Among the outputs the helper adds there is no skip event. -/
def NeverSkips (helper : State → Except Fault State) : Prop :=
  ∀ s t n reason, helper s = .ok t → .skip n reason ∈ t.events → PortEvent.skip n reason ∈ s.events

theorem helperJal_neverSkips (rd : RegIdx) (imm : Word) : NeverSkips (helperJal rd imm) := by
  intro s t n reason h hmem
  rw [helperJal_eq] at h
  cases h
  simpa using hmem

section Requests
variable (w : Width) (rd : RegIdx) (ea v : Word)

theorem helperLd_neverSkips : NeverSkips (helperLd w rd ea) := by
  intro s t n reason h hmem
  cases ha : memAdmits s ea w .read with
  | true => rw [helperLd_of_admits ha] at h; cases h; simpa using hmem
  | false => rw [helperLd_of_refused ha] at h; cases h

theorem helperLdSigned_neverSkips : NeverSkips (helperLdSigned w rd ea) := by
  intro s t n reason h hmem
  cases ha : memAdmits s ea w .read with
  | true => rw [helperLdSigned_of_admits ha] at h; cases h; simpa using hmem
  | false => rw [helperLdSigned_of_refused ha] at h; cases h

theorem helperSt_neverSkips : NeverSkips (helperSt w ea v) := by
  intro s t n reason h hmem
  rw [helperSt] at h
  cases ha : memAdmits s ea w .write with
  | true => rw [storeMemory_of_admits ha] at h; cases h; simpa using hmem
  | false => rw [storeMemory_of_refused ha] at h; cases h

end Requests

/-- A cycle begins with no output, so it skips only if its helper does. -/
theorem NeverSkips.not_mem_events {f : State → Except Fault State} (hf : NeverSkips f) {s t : State}
    (h : runCycle f s = .next t) (n reason : Nat) : .skip n reason ∉ t.events := by
  obtain ⟨-, u, hu, rfl⟩ := runCycle_eq_next h
  intro hmem
  rw [endCycle_events] at hmem
  simpa using hf _ _ n reason hu hmem

/-- Every instruction but the two forms of `jalr` is a cycle around a helper that never skips. -/
theorem exec_eq_neverSkips_of_not_isJalr {i : Instr} (h : Instr.isJalr i = false) (s : State) :
    ∃ f, exec i s = runCycle f s ∧ NeverSkips f := by
  cases i with
  | jalr | rvJalr => cases h
  | jal | rvJal => exact ⟨_, rfl, helperJal_neverSkips _ _⟩
  | ld4 | ld2 | ld1 | rvLw | rvLbu | rvLhu => exact ⟨_, rfl, helperLd_neverSkips _ _ _⟩
  | lh | lb | rvLb | rvLh => exact ⟨_, rfl, helperLdSigned_neverSkips _ _ _⟩
  | st4 | st2 | st1 | rvSb | rvSh | rvSw => exact ⟨_, rfl, helperSt_neverSkips _ _ _⟩

/-- The one output of a `jalr` cycle, in either form (41_jump_and_link.md R121). -/
theorem exec_events_of_isJalr {i : Instr} {s t : State} (hi : Instr.isJalr i = true) (h : exec i s = .next t) :
    t.events = [.skip Config.jalrSkipN Config.jalrSkipReason] := by
  obtain ⟨rd, base, off, hcycle⟩ := exec_eq_helperJalr_of_isJalr hi s
  obtain ⟨hf, -⟩ := exec_effect h
  obtain ⟨t', ht', -, -, -, -, hevents, -⟩ := runCycle_helperJalr hf rd base off
  rw [hcycle, ht'] at h
  cases h
  exact hevents

/-! ### The obligations on the primitives and the cycle -/

/-- Settles O47: a `jalr` cycle has the open skip event as its one output, and no other cycle has one. -/
theorem onlyJalrSkips : Obligations.OnlyJalrSkips := by
  intro i s t n reason h
  cases hi : Instr.isJalr i with
  | true => simp [exec_events_of_isJalr hi h]
  | false =>
    obtain ⟨f, hcycle, hf⟩ := exec_eq_neverSkips_of_not_isJalr hi s
    rw [hcycle] at h
    simp [hf.not_mem_events h n reason]

/-- Settles O39: a cycle does not begin while the latch is set, and its helper leaves latch and kind alone. -/
theorem noInstructionIsFatal : Obligations.NoInstructionIsFatal :=
  fun i _ => ⟨fun hf => exec_of_fatal hf i, fun _ h => ⟨exec_fatal h, exec_fatalKind h⟩⟩

/-- Settles O33: bytes and halves are extended from their top bit; a word has no bit above its own. -/
theorem signExtendCopiesTheTopBit : Obligations.SignExtendCopiesTheTopBit := by
  intro w src k hk
  cases w with
  | byte => exact getLsbD_signExtend_setWidth src (by decide) hk
  | half => exact getLsbD_signExtend_setWidth src (by decide) hk
  | word => exact (if_pos hk).symm

/-- Settles O34: the register file's laws of a read after a write, and of register 0. -/
theorem registerWriteThenRead : Obligations.RegisterWriteThenRead :=
  fun _ _ v s => ⟨readReg_setRegister_self s v, readReg_setRegister_ne s v, setRegister_zero s v, readReg_zero s⟩

/-- Settles O59: addition of 32-bit words wraps at 2^32. -/
theorem add32IsModulo2To32 : Obligations.Add32IsModulo2To32 := BitVec.toNat_add

end Sys2Proof.Machine

/-! The load family (42_loads.md R130 to R136): the five loads, and `ld` with a width it does not support. -/

namespace Sys2Proof.Machine

/-! ### A width tag other than 1, 2 and 4 (30_encoding.md R79) -/

theorem decodeWidth_of_unsupported {w : BitVec 3} (h1 : w ≠ 1#3) (h2 : w ≠ 2#3) (h4 : w ≠ 4#3) :
    decodeWidth w = .error .unsupportedWidth := by
  simp [decodeWidth, h1, h2, h4]

/-- A record whose instruction is `mk` of its width, offered with an unsupported width, is Fatal(UnsupportedWidth)
(42_loads.md R135, 43_stores.md R143). -/
theorem exists_fatalDone_of_unsupportedWidth {s : State} {d : Record} {rest : List Record} {mk : Width → Instr}
    (hr : s.resetReq = false) (hf : s.fatal = false) (hs : s.supply = .records (d :: rest))
    (hdecode : decodeRecord d = (decodeWidth (recWidth d)).map mk)
    (h1 : recWidth d ≠ 1#3) (h2 : recWidth d ≠ 2#3) (h4 : recWidth d ≠ 4#3) :
    ∃ t, step s = .next t ∧ FatalDone s t 1#2 := by
  have herr : decodeRecord d = .error .unsupportedWidth := by
    rw [hdecode, decodeWidth_of_unsupported h1 h2 h4]
    rfl
  exact ⟨_, step_of_nextOffer_fatal hr hf (nextOffer_of_record_error hs herr),
    fatalDone_takeFatal .unsupportedWidth s⟩

/-! ### The obligations on loads -/

/-- Settles O20: the cycle of the zero-extending loader at four bytes, which fill the register. -/
theorem ld4LoadsTheWord : Obligations.Ld4LoadsTheWord := by
  intro rd ea s hf
  rw [← memRead_word_eq]
  exact loadRule_of_helperLd hf (exec_ld4 ..)

/-- Settles O21: the cycle of the zero-extending loader at two bytes, with 16 zero bits above them. -/
theorem ld2ZeroExtends : Obligations.Ld2ZeroExtends := by
  intro rd ea s hf
  rw [← memRead_half_eq]
  exact loadRule_of_helperLd hf (exec_ld2 ..)

/-- Settles O22: the cycle of the zero-extending loader at one byte, with 24 zero bits above it. -/
theorem ld1ZeroExtends : Obligations.Ld1ZeroExtends := by
  intro rd ea s hf
  rw [← memRead_byte_eq]
  exact loadRule_of_helperLd hf (exec_ld1 ..)

/-- Settles O23: the cycle of the sign-extending loader at two bytes. -/
theorem lhSignExtends : Obligations.LhSignExtends := by
  intro rd ea s hf
  rw [← signExtendTo_memRead_half]
  exact loadRule_of_helperLdSigned hf (exec_lh ..)

/-- Settles O24: the cycle of the sign-extending loader at one byte. -/
theorem lbSignExtends : Obligations.LbSignExtends := by
  intro rd ea s hf
  rw [← signExtendTo_memRead_byte]
  exact loadRule_of_helperLdSigned hf (exec_lb ..)

/-- Settles O35: the `LD` family dispatches on the width, which is rejected before the cycle begins. -/
theorem ldWithUnsupportedWidthIsFatal : Obligations.LdWithUnsupportedWidthIsFatal :=
  fun _ _ _ hr hf hs htag h1 h2 h4 =>
    exists_fatalDone_of_unsupportedWidth hr hf hs (decodeRecord_of_ld htag) h1 h2 h4

end Sys2Proof.Machine

/-! The store family (43_stores.md R140 to R144): the three stores, and `st` with a width it does not support. -/

namespace Sys2Proof.Machine

/-- Settles O26: the cycle of the storing helper at four bytes. -/
theorem st4StoresTheWord : Obligations.St4StoresTheWord :=
  fun _ _ _ hf hwf => storeRule_of_helperSt hf hwf (exec_st4 ..)

/-- Settles O27: the cycle of the storing helper at two bytes. -/
theorem st2StoresTheLowHalf : Obligations.St2StoresTheLowHalf :=
  fun _ _ _ hf hwf => storeRule_of_helperSt hf hwf (exec_st2 ..)

/-- Settles O28: the cycle of the storing helper at one byte. -/
theorem st1StoresTheLowByte : Obligations.St1StoresTheLowByte :=
  fun _ _ _ hf hwf => storeRule_of_helperSt hf hwf (exec_st1 ..)

/-- Settles O36: the `ST` family dispatches on the width, which is rejected before the cycle begins. -/
theorem stWithUnsupportedWidthIsFatal : Obligations.StWithUnsupportedWidthIsFatal :=
  fun _ _ _ hr hf hs htag h1 h2 h4 =>
    exists_fatalDone_of_unsupportedWidth hr hf hs (decodeRecord_of_st htag) h1 h2 h4

end Sys2Proof.Machine

/-! The register file's ports (44_register_file_ports.md R150 to R157): names and indices, values by name, the dump,
the silence while the latch is set, and the expression evaluator as their client. -/

namespace Sys2Proof.Machine

/-! ### A port answers exactly while the latch is clear (44_register_file_ports.md R157) -/

@[simp] theorem answer_of_running {α : Type} {s : State} (hf : s.fatal = false) (v : α) : answer s v = some v := by
  simp [answer, hf]

@[simp] theorem answer_of_fatal {α : Type} {s : State} (hf : s.fatal = true) (v : α) : answer s v = none := by
  simp [answer, hf]

/-! ### Names and indices (44_register_file_ports.md R150, R151) -/

section Names
variable {names : NameTable}

theorem pc_ne_reg (hwf : names.wf) (i : RegIdx) : names.reg[i] ≠ names.pc := by
  intro h
  refine (List.nodup_cons.mp hwf).1 (h ▸ ?_)
  simp

theorem reg_injective (hwf : names.wf) {i j : RegIdx} (h : names.reg[i] = names.reg[j]) : i = j :=
  Fin.ext (((List.nodup_cons.mp hwf).2.getElem_inj_iff (hi := by simp) (hj := by simp)).mp (by simpa using h))

/-- A found index has the name that was looked up. -/
theorem reg_of_findReg {n : String} {i : RegIdx} (h : findReg names n = some i) : names.reg[i] = n := by
  simpa using List.find?_some h

theorem findReg_eq_none {n : String} : findReg names n = none ↔ ∀ i : RegIdx, names.reg[i] ≠ n := by
  simp [findReg]

/-- Of pairwise different names each is found at its own index only. -/
theorem findReg_reg (hwf : names.wf) (i : RegIdx) : findReg names names.reg[i] = some i := by
  cases h : findReg names names.reg[i] with
  | none => exact absurd rfl (findReg_eq_none.mp h i)
  | some j => rw [reg_injective hwf (reg_of_findReg h)]

theorem findReg_pc (hwf : names.wf) : findReg names names.pc = none := findReg_eq_none.mpr (pc_ne_reg hwf)

/-! ### `value_of` by what the name is (44_register_file_ports.md R153) -/

variable (s : State)

theorem lookupValue_pc : lookupValue names s names.pc = (s.pc, true) := by
  simp [lookupValue]

theorem lookupValue_reg (hwf : names.wf) (i : RegIdx) : lookupValue names s names.reg[i] = (readReg s i, true) := by
  simp only [lookupValue, if_neg (pc_ne_reg hwf i), findReg_reg hwf i]

theorem lookupValue_unknown {n : String} (hpc : n ≠ names.pc) (hreg : ∀ i : RegIdx, names.reg[i] ≠ n) :
    lookupValue names s n = (0#32, false) := by
  simp only [lookupValue, if_neg hpc, findReg_eq_none.mpr hreg]

/-! ### `index_of` by what the search finds (44_register_file_ports.md R151) -/

variable {s}

theorem indexOf_of_some (hf : s.fatal = false) {n : String} {i : RegIdx} (h : findReg names n = some i) :
    indexOf names s n = some (i, true) := by
  simp [indexOf, hf, h]

theorem indexOf_of_none (hf : s.fatal = false) {n : String} (h : findReg names n = none) :
    indexOf names s n = some (0, false) := by
  simp [indexOf, hf, h]

/-- An index is reported as found only where the search found it. -/
theorem findReg_of_indexOf (hf : s.fatal = false) {n : String} {i : RegIdx}
    (h : indexOf names s n = some (i, true)) : findReg names n = some i := by
  cases hr : findReg names n with
  | none => simp [indexOf_of_none hf hr] at h
  | some j => simpa [indexOf_of_some hf hr] using h

end Names

/-! ### The debugger's memory read (60_exceptions.md R173) -/

theorem debugRead_of_admits {s : State} (hf : s.fatal = false) {a : Word} (h : memAdmits s a .word .read = true) :
    debugRead s a = some (memRead s.mem a .word) := by
  simp [debugRead, hf, h]

theorem debugRead_of_fatal {s : State} (hf : s.fatal = true) (a : Word) : debugRead s a = none := by
  simp [debugRead, hf]

/-! ### Evaluation of a unary operator (60_exceptions.md R178 to R180) -/

/-- Only a literal or a register has a value as a single token (60_exceptions.md R179). -/
theorem isValue_of_evalToken_eq_ok {names : NameTable} {s : State} {t : Token} {a : Word}
    (h : evalToken names s t = .ok a) : t.kind = .dec ∨ t.kind = .hex ∨ t.kind = .reg := by
  rw [evalToken.eq_def] at h
  cases hk : t.kind <;> simp_all

section Evaluate
variable (names : NameTable) (P : EvalParams) (s : State)

theorem evalTokens_singleton (t : Token) : evalTokens names P s [t] = evalToken names s t := by
  simp [evalTokens, evalRange]

/-- A range without parentheses around it that has a unary main operator applies it to what follows it. -/
theorem evalTokens_of_unary {ts : List Token} {op : Nat} {o : Token} {f : Word → Except EvalError Word}
    (hl : 2 ≤ ts.length) (hs : parenShape ts = .balanced) (hm : mainOperator P.rank ts = some op)
    (ho : ts[op]? = some o) (hu : unaryOperator s o.kind = some f) :
    evalTokens names P s ts = (evalTokens names P s (ts.drop (op + 1))).bind f := by
  match ts with
  | t :: u :: ts =>
    have hk : (((t :: u :: ts).drop op).head?.map (·.kind)).getD .dec = o.kind := by simp [List.head?_drop, ho]
    rw [← evalRange_eq_evalTokens names P s (fuel := ts.length + 1) (ts := (t :: u :: ts).drop (op + 1))
        (by simp)]
    conv => lhs; unfold evalTokens; rw [List.length_cons, List.length_cons]; unfold evalRange
    simp only [hs, hm, hk, hu]

/-- The dereference of a token with a value is what the debugger reads at that value (60_exceptions.md R173, R180). -/
theorem evalTokens_deref {star t : Token} {a v : Word} (hstar : star.kind = .deref)
    (ht : evalTokens names P s [t] = .ok a) (hread : debugRead s a = some v) :
    evalTokens names P s [star, t] = .ok v := by
  have hvalue := isValue_of_evalToken_eq_ok (evalTokens_singleton names P s t ▸ ht)
  have hparen : t.kind ≠ .lparen ∧ t.kind ≠ .rparen := by
    rcases hvalue with h | h | h <;> simp [h]
  have hoperator : t.kind.isOperator = false := by
    rcases hvalue with h | h | h <;> simp [h, TokenKind.isOperator]
  have hshape : parenShape [star, t] = .balanced := parenShape_of_no_paren (by simp [hstar, hparen])
  have hmain : mainOperator P.rank [star, t] = some 0 := by
    rw [mainOperator, mainOperatorFrom_operator _ _ _ _ (by simp [hstar, TokenKind.isOperator])]
    exact mainOperatorFrom_of_tighter _ (by simp [hparen]) (by simp [hoperator]) _
  rw [evalTokens_of_unary names P s (o := star) (by simp) hshape hmain rfl (by rw [hstar]; rfl)]
  simp [ht, hread, Except.bind]

end Evaluate

/-! ### The obligations on ports -/

/-- Settles O49: the search for a name finds the registers of a one-to-one table and nothing else. -/
theorem valueOfFindsExactlyTheNames : Obligations.ValueOfFindsExactlyTheNames := by
  intro names s hwf hf
  refine ⟨?_, fun i => ?_, fun n hpc hreg => ?_⟩
  · rw [valueOf, lookupValue_pc, answer_of_running hf]
  · rw [valueOf, lookupValue_reg s hwf, answer_of_running hf]
  · rw [valueOf, lookupValue_unknown s hpc hreg, answer_of_running hf]

/-- Settles O50: in a one-to-one table the search inverts the table. -/
theorem namesAndIndicesCorrespond : Obligations.NamesAndIndicesCorrespond := by
  intro names s hwf hf
  refine ⟨fun i => ⟨indexOf_of_some hf (findReg_reg hwf i), answer_of_running hf _⟩, fun n i h => ?_,
    indexOf_of_none hf (findReg_pc hwf)⟩
  rw [nameOf, reg_of_findReg (findReg_of_indexOf hf h), answer_of_running hf]

/-- Settles O51: the register entries come first, one per index, so the entry after them is number 32. -/
theorem dumpListsRegistersThenPc : Obligations.DumpListsRegistersThenPc := by
  intro names s hf
  refine ⟨_, answer_of_running hf _, by simp, fun i => ?_, ?_⟩
  · rw [List.getElem?_append_left (by simp)]
    simp [dumpEntry]
  · rw [List.getElem?_append_right (by simp)]
    simp [dumpEntry]

/-- Settles O54: register tokens read `value_of`, dereference the debugger's memory read. -/
theorem evaluatorReadsThroughThePorts : Obligations.EvaluatorReadsThroughThePorts := by
  intro names P s lexeme hwf hf
  refine ⟨fun i => ?_, fun hpc hreg => ?_, fun star t a hstar ht ha => ?_⟩
  · simp only [evalTokens_singleton, evalToken, lookupValue_reg s hwf]
  · simp only [evalTokens_singleton, evalToken, lookupValue_unknown s hpc hreg]
  · rw [← memRead_word_eq]
    exact evalTokens_deref names P s hstar ht (debugRead_of_admits hf ha)

/-- Settles O52: every port answers through `answer` or asks for a clear latch itself. -/
theorem portsSilentWhileFatal : Obligations.PortsSilentWhileFatal := by
  intro names P s n i a hf
  exact ⟨answer_of_fatal hf _, answer_of_fatal hf _, answer_of_fatal hf _, answer_of_fatal hf _,
    answer_of_fatal hf _, debugRead_of_fatal hf a, if_pos hf⟩

end Sys2Proof.Machine

/-! The Fatal outcome and the expression evaluator (60_exceptions.md R161 to R182): the latch is entered without a
commit and left by reset only; which lexical rule matches where, and which operator a range is split at. -/

namespace Sys2Proof.Machine

/-! ### Lexical rules at the front of a text (60_exceptions.md R174, R175) -/

/-- The text of a kind begins with a character that is no digit. -/
theorem spelling_head_not_digit {k : TokenKind} {sp : List Char} (h : k.spelling = some sp) :
    ∃ c cs, sp = c :: cs ∧ isDigitOf 10 c = false := by
  cases k <;> cases h <;> exact ⟨_, _, rfl, by decide⟩

theorem beginsWith_cons_of_ne {c d : Char} (h : c ≠ d) (sp cs : List Char) :
    beginsWith (c :: sp) (d :: cs) = false := by
  simp [beginsWith, h.symm]

theorem takes_spelled_self {k : TokenKind} {sp : List Char} (h : k.spelling = some sp) :
    (LexRule.spelled k).takes sp = some sp.length := by
  simp [LexRule.takes, h, beginsWith_self]

section Table
variable {P : EvalParams} (hP : P.wf) {r : LexRule} (hr : r ∈ P.rules) {c : Char} (cs : List Char)
include hP hr

/-- The register and whitespace patterns aside, only the rules for literals and texts can match a text that begins as
one of those does. -/
theorem takes_of_opensToken (hc : opensToken c = true) :
    r.takes (c :: cs) = none ∨ r = .decimal ∨ r = .hexadecimal ∨ ∃ l, r = .spelled l := by
  obtain ⟨-, -, hapart, -⟩ := hP
  cases r with
  | whitespace f => exact .inl ((hapart c cs hc).2 f hr)
  | register f => exact .inl ((hapart c cs hc).1 f hr)
  | decimal => exact .inr (.inl rfl)
  | hexadecimal => exact .inr (.inr (.inl rfl))
  | spelled l => exact .inr (.inr (.inr ⟨l, rfl⟩))

/-- Only the rules for literals match a text that begins with a digit. -/
theorem takes_of_digit (hc : isDigitOf 10 c = true) :
    r.takes (c :: cs) = none ∨ r = .decimal ∨ r = .hexadecimal := by
  obtain h | h | h | ⟨l, rfl⟩ := takes_of_opensToken hP hr cs (c := c) (by simp [opensToken, hc])
  · exact .inl h
  · exact .inr (.inl h)
  · exact .inr (.inr h)
  · cases hl : l.spelling with
    | none => exact .inl (by simp [LexRule.takes, hl])
    | some tp =>
      obtain ⟨d, ds, rfl, hd⟩ := spelling_head_not_digit hl
      have hne : d ≠ c := by rintro rfl; simp [hc] at hd
      exact .inl (by simp [LexRule.takes, hl, beginsWith_cons_of_ne hne])

/-- "A single `&` matches no rule" (60_exceptions.md R175). -/
theorem takes_single_ampersand (hc : cs.head? ≠ some '&') : r.takes ('&' :: cs) = none := by
  obtain h | rfl | rfl | ⟨l, rfl⟩ := takes_of_opensToken hP hr cs (c := '&') (by decide)
  · exact h
  · have hd : isDigitOf 10 '&' = false := by decide
    simp [LexRule.takes, digitRun, hd]
  · simp [LexRule.takes, hexDigits, beginsWith_cons_of_ne (c := '0') (d := '&') (by decide)]
  · cases l with
    | land =>
      have hb : beginsWith ['&', '&'] ('&' :: cs) = false := by
        cases cs with
        | nil => decide
        | cons d ds => simpa [beginsWith] using hc
      simp [LexRule.takes, TokenKind.spelling, hb]
    | _ => simp [LexRule.takes, TokenKind.spelling, beginsWith]

end Table

/-- In a table as the rules state it the text of a kind is matched whole, by the rule of that kind. -/
theorem firstMatch_spelling {P : EvalParams} (hP : P.wf) {k : TokenKind} (hk : k ∈ spelledKinds) {sp : List Char}
    (hs : k.spelling = some sp) : firstMatch P.rules sp = some (some k, sp.length) := by
  have ⟨⟨hspelled, _⟩, hpairwise, _⟩ := hP
  obtain ⟨c, cs, rfl, -⟩ := spelling_head_not_digit hs
  refine firstMatch_eq_of_mem hpairwise (hspelled k hk) (takes_spelled_self hs) fun r hr => ?_
  obtain h | ⟨l, tp, rfl, hl, hb⟩ := takes_spelling hP hr hk hs
  · exact .inl h
  · obtain rfl | hp := spelled_may_not_shadow hk hs hl hb
    · exact .inr (.inl ⟨rfl, takes_spelled_self hs⟩)
    · exact .inr (.inr hp)

/-- Digits alone are matched whole, by the rule for decimal literals: they do not begin as a hexadecimal one. -/
theorem firstMatch_decimal {P : EvalParams} (hP : P.wf) {cs : List Char} (hne : cs ≠ [])
    (hd : cs.all (isDigitOf 10) = true) : firstMatch P.rules cs = some (some .dec, cs.length) := by
  have ⟨⟨_, hmem, _⟩, hpairwise, _⟩ := hP
  rw [List.all_eq_true] at hd
  have htakes : LexRule.decimal.takes cs = some cs.length := digitRun_of_all hne hd
  have hhex : LexRule.hexadecimal.takes cs = none := by
    have hb : beginsWith ['0', 'x'] cs = false := decide_eq_false fun h => by
      have hx : 'x' ∈ cs := List.mem_of_mem_take (i := 2) (by rw [show cs.take 2 = _ from h]; simp)
      exact absurd (hd _ hx) (by decide)
    simp [LexRule.takes, hexDigits, hb]
  obtain ⟨c, cs, rfl⟩ := List.exists_cons_of_ne_nil hne
  refine firstMatch_eq_of_mem hpairwise hmem htakes fun r hr => ?_
  obtain h | rfl | rfl := takes_of_digit hP hr cs (hd c List.mem_cons_self)
  · exact .inl h
  · exact .inr (.inl ⟨rfl, htakes⟩)
  · exact .inl hhex

/-- `0x` and hexadecimal digits are matched whole, by the rule for hexadecimal literals, which no rule for decimal ones
precedes. -/
theorem firstMatch_hexadecimal {P : EvalParams} (hP : P.wf) {cs : List Char} (hne : cs ≠ [])
    (hd : cs.all (isDigitOf 16) = true) :
    firstMatch P.rules ('0' :: 'x' :: cs) = some (some .hex, ('0' :: 'x' :: cs).length) := by
  have ⟨⟨_, _, hmem, _⟩, hpairwise, _⟩ := hP
  rw [List.all_eq_true] at hd
  have htakes : LexRule.hexadecimal.takes ('0' :: 'x' :: cs) = some ('0' :: 'x' :: cs).length := by
    have hlength : ('0' :: 'x' :: cs).length = 2 + cs.length := Nat.add_comm cs.length 2
    rw [hlength]
    simp [LexRule.takes, hexDigits, beginsWith, digitRun_of_all hne hd]
  refine firstMatch_eq_of_mem hpairwise hmem htakes fun r hr => ?_
  obtain h | rfl | rfl := takes_of_digit hP hr ('x' :: cs) (c := '0') (by decide)
  · exact .inl h
  · exact .inr (.inr rfl)
  · exact .inr (.inl ⟨rfl, htakes⟩)

/-! ### One token (60_exceptions.md R176, R179) -/

theorem evalLiteral_of_number {hexadecimal : Bool} {lexeme : String} {n : Nat}
    (h : literalNumber hexadecimal lexeme = some n) (hn : n < 2 ^ 32) :
    evalLiteral hexadecimal lexeme = .ok (BitVec.ofNat 32 n) := by
  simp only [evalLiteral, h, if_pos hn]

theorem literalNumber_decimal (cs : List Char) :
    literalNumber false (String.ofList cs) = digitsValue 10 cs := by
  simp [literalNumber]

theorem literalNumber_hexadecimal (cs : List Char) :
    literalNumber true (String.ofList ('0' :: 'x' :: cs)) = digitsValue 16 cs := by
  simp [literalNumber, hexDigits, beginsWith]

/-- A pass leaves a token alone whose kind it does not take. -/
theorem reclassify_cons_of_none {f : TokenKind → Option TokenKind} {t : Token} (prev : Option TokenKind)
    (ts : List Token) (h : f t.kind = none) :
    reclassify f prev (t :: ts) = t :: reclassify f (some t.kind) ts := by
  simp only [reclassify, h]

/-- A pass reclassifies a token of a kind it takes where no value-producing token stands before it. -/
theorem reclassify_cons_of_some {f : TokenKind → Option TokenKind} {t : Token} {k : TokenKind}
    {prev : Option TokenKind} (ts : List Token) (h : f t.kind = some k)
    (hprev : prev.any TokenKind.producesValue = false) :
    reclassify f prev (t :: ts) = { t with kind := k } :: reclassify f (some k) ts := by
  simp [reclassify, h, hprev]

/-- Neither pass takes a token with a value. -/
theorem not_reclassified_of_isValue {k : TokenKind} (h : k = .dec ∨ k = .hex ∨ k = .reg) :
    derefKind k = none ∧ unaryKind k = none := by
  rcases h with rfl | rfl | rfl <;> exact ⟨rfl, rfl⟩

/-- The dereference pass takes no sign. -/
theorem derefKind_of_unaryKind {k u : TokenKind} (h : unaryKind k = some u) : derefKind k = none := by
  cases k with
  | plus | minus => rfl
  | _ => cases h

theorem reclassifyAll_singleton {t : Token} (ht : t.kind = .dec ∨ t.kind = .hex ∨ t.kind = .reg) :
    reclassifyAll [t] = [t] := by
  obtain ⟨hderef, hunary⟩ := not_reclassified_of_isValue ht
  rw [reclassifyAll, reclassify_cons_of_none _ _ hderef, reclassify, reclassify_cons_of_none _ _ hunary, reclassify]

/-- A text that is one token with a value is answered with that value. -/
theorem exprPort_of_token {names : NameTable} {P : EvalParams} {s : State} {text : String} {t : Token} {v : Word}
    (hf : s.fatal = false) (ht : tokenize P.rules text = .ok [t]) (hv : evalToken names s t = .ok v) :
    exprPort names P s text = some (v, true) := by
  simp [exprPort, hf, ht, Except.bind, reclassifyAll_singleton (isValue_of_evalToken_eq_ok hv),
    evalTokens_singleton, hv]

/-! ### Parentheses (60_exceptions.md R177, R180) -/

theorem innerTokens_enclose (l r : Token) (ts : List Token) : innerTokens (l :: (ts ++ [r])) = ts := by
  simp [innerTokens]

theorem parenShape_enclose {l r : Token} {ts : List Token} (hl : l.kind = .lparen) (hr : r.kind = .rparen)
    (h : (depthAfter 0 ts).isSome = true) : parenShape (l :: (ts ++ [r])) = .enclosed := by
  rw [parenShape, if_pos]
  rw [innerTokens_enclose, ← List.cons_append, List.getLast?_concat]
  simp [hl, hr, h]

/-! ### The main operator of a range without parentheses (60_exceptions.md R178) -/

theorem not_paren_of_isOperator {k : TokenKind} (h : k.isOperator = true) : k ≠ .lparen ∧ k ≠ .rparen := by
  constructor <;> rintro rfl <;> cases h

theorem isOperator_of_unaryOperator {s : State} {k : TokenKind} {f : Word → Except EvalError Word}
    (h : unaryOperator s k = some f) : k.isOperator = true := by
  cases k with
  | deref | pos | neg => rfl
  | _ => cases h

/-- The main operator is the loosest one, the rightmost of equals. -/
theorem mainOperator_of_loosest (rank : TokenKind → Nat) {left right : List Token} {o : Token}
    (hp : ∀ t ∈ left ++ right, t.kind ≠ .lparen ∧ t.kind ≠ .rparen) (ho : o.kind.isOperator = true)
    (hleft : ∀ t ∈ left, t.kind.isOperator = true → rank t.kind ≤ rank o.kind)
    (hright : ∀ t ∈ right, t.kind.isOperator = true → rank t.kind < rank o.kind) :
    mainOperator rank (left ++ o :: right) = some left.length := by
  obtain ⟨best, hbest, hscan⟩ := mainOperatorFrom_append rank (o :: right) (r := rank o.kind) (best := none)
    (fun t ht => hp t (List.mem_append_left right ht)) hleft 0 (by simp)
  have htaken : best.all (fun b => decide (b.2 ≤ rank o.kind)) = true := by
    simpa [Option.all_eq_true] using hbest
  rw [mainOperator, hscan, mainOperatorFrom_operator _ _ _ _ ho, if_pos htaken,
    mainOperatorFrom_of_tighter _ (fun t ht => hp t (List.mem_append_right left ht)) hright, Nat.zero_add]

/-- An operator between ranges without parentheses leaves the whole balanced (60_exceptions.md R177). -/
theorem parenShape_of_operator {left right : List Token} {o : Token}
    (hp : ∀ t ∈ left ++ right, t.kind ≠ .lparen ∧ t.kind ≠ .rparen) (ho : o.kind.isOperator = true) :
    parenShape (left ++ o :: right) = .balanced :=
  parenShape_of_no_paren fun t ht => by
    obtain rfl | ht := List.mem_cons.mp (List.perm_middle.mem_iff.mp ht)
    · exact not_paren_of_isOperator ho
    · exact hp t ht

section Evaluate
variable (names : NameTable) (P : EvalParams) (s : State)

/-- An enclosed range evaluates as what it encloses: the fuel left is enough for it. -/
theorem evalTokens_of_enclosed {ts : List Token} (hl : 2 ≤ ts.length) (hs : parenShape ts = .enclosed) :
    evalTokens names P s ts = evalTokens names P s (innerTokens ts) := by
  match ts with
  | t :: u :: ts =>
    rw [← evalRange_eq_evalTokens names P s (fuel := ts.length + 1) (ts := innerTokens (t :: u :: ts))
      (by simp [innerTokens])]
    conv => lhs; unfold evalTokens; rw [List.length_cons, List.length_cons]; unfold evalRange
    simp only [hs]

/-- A range without parentheses is split at its loosest operator, the rightmost of equals, if that is binary. -/
theorem evalTokens_split {left right : List Token} {o : Token}
    (hp : ∀ t ∈ left ++ right, t.kind ≠ .lparen ∧ t.kind ≠ .rparen) (hne : left ++ right ≠ [])
    (ho : o.kind.isOperator = true) (hbinary : o.kind.isUnary = false)
    (hleft : ∀ t ∈ left, t.kind.isOperator = true → P.rank t.kind ≤ P.rank o.kind)
    (hright : ∀ t ∈ right, t.kind.isOperator = true → P.rank t.kind < P.rank o.kind) :
    evalTokens names P s (left ++ o :: right) =
      ((evalTokens names P s left).bind fun x =>
        (evalTokens names P s right).bind fun y => binaryOperator o.kind x y) := by
  have hlength : 2 ≤ (left ++ o :: right).length := by
    have := List.length_pos_iff.mpr hne
    simp only [List.length_append, List.length_cons] at this ⊢
    omega
  rw [evalTokens_of_binary names P s (o := o) hlength (parenShape_of_operator hp ho)
    (mainOperator_of_loosest P.rank hp ho hleft hright) (by simp) (unaryOperator_of_not_unary s hbinary)]
  simp

/-- A unary operator before a range without parentheses, all of whose operators are tighter, applies to that range. -/
theorem evalTokens_unary_cons {o : Token} {ts : List Token} {f : Word → Except EvalError Word}
    (hp : ∀ t ∈ ts, t.kind ≠ .lparen ∧ t.kind ≠ .rparen) (hne : ts ≠ []) (hf : unaryOperator s o.kind = some f)
    (htighter : ∀ t ∈ ts, t.kind.isOperator = true → P.rank t.kind < P.rank o.kind) :
    evalTokens names P s (o :: ts) = (evalTokens names P s ts).bind f := by
  have ho := isOperator_of_unaryOperator hf
  have hlength : 2 ≤ (o :: ts).length := Nat.succ_le_succ (List.length_pos_iff.mpr hne)
  exact evalTokens_of_unary names P s hlength (parenShape_of_operator (left := []) hp ho)
    (mainOperator_of_loosest P.rank (left := []) hp ho (by simp) htighter) rfl hf

end Evaluate

/-- A token with a value is neither a parenthesis nor an operator. -/
theorem not_paren_not_operator_of_isValue {k : TokenKind} (h : k = .dec ∨ k = .hex ∨ k = .reg) :
    (k ≠ .lparen ∧ k ≠ .rparen) ∧ k.isOperator = false := by
  rcases h with rfl | rfl | rfl <;> decide

/-! ### A star, a sign and a value (60_exceptions.md R176) -/

/-- A star at the front is a dereference, and a sign behind it is unary, since a dereference produces no value. -/
theorem reclassifyAll_star_sign {star sign v : Token} {k : TokenKind} (hstar : star.kind = .star)
    (hsign : unaryKind sign.kind = some k) (hv : v.kind = .dec ∨ v.kind = .hex ∨ v.kind = .reg) :
    reclassifyAll [star, sign, v] = [{ star with kind := .deref }, { sign with kind := k }, v] := by
  obtain ⟨hvderef, hvunary⟩ := not_reclassified_of_isValue hv
  have hderef : reclassify derefKind none [star, sign, v] = [{ star with kind := .deref }, sign, v] := by
    rw [reclassify_cons_of_some (k := .deref) _ (hstar ▸ rfl) rfl,
      reclassify_cons_of_none _ _ (derefKind_of_unaryKind hsign), reclassify_cons_of_none _ _ hvderef, reclassify]
  rw [reclassifyAll, hderef, reclassify_cons_of_none _ _ rfl, reclassify_cons_of_some _ hsign rfl,
    reclassify_cons_of_none _ _ hvunary, reclassify]

/-! ### The obligations on the Fatal outcome -/

/-- Settles O38: of what a step can be, only Fatal entry sets the latch. -/
theorem fatalCycleCommitsNothing : Obligations.FatalCycleCommitsNothing := by
  intro s t _ h ht
  obtain ⟨-, rfl⟩ | ⟨-, -, k, -, rfl⟩ | ⟨-, -, i, u, -, hexec⟩ := step_eq_next h
  · simp at ht
  · obtain hcode | hcode := k.code_eq_one_or_two
    · exact .inl (hcode ▸ fatalDone_takeFatal k s)
    · exact .inr (hcode ▸ fatalDone_takeFatal k s)
  · simp [exec_fatal hexec] at ht

/-- Settles O40: with the latch set, a step is an asserted reset or the fault. -/
theorem fatalEndsOnlyByReset : Obligations.FatalEndsOnlyByReset := by
  intro s hf
  refine ⟨fun hr => step_of_fatal hr hf, fun t h => ?_⟩
  cases hr : s.resetReq with
  | true =>
    rw [step_of_reset hr] at h
    cases h
    exact ⟨rfl, rfl⟩
  | false =>
    rw [step_of_fatal hr hf] at h
    cases h

/-! ### The obligations on the expression evaluator -/

/-- Settles O53: the range between the parentheses is what the enclosed range evaluates as. -/
theorem parenthesesEvaluateAsTheirInterior : Obligations.ParenthesesEvaluateAsTheirInterior := by
  intro names P s l r ts hl hr hdepth
  rw [evalTokens_of_enclosed names P s (by simp) (parenShape_enclose hl hr hdepth), innerTokens_enclose]

/-- Settles O55: a text is matched by the rule of its kind first, and a single `&` by no rule. -/
theorem spellingsLexAsTheirKinds : Obligations.SpellingsLexAsTheirKinds := by
  intro P hP
  refine ⟨fun k hk sp hs => ?_, fun cs hcs => ?_⟩
  · obtain ⟨c, cs, rfl, -⟩ := spelling_head_not_digit hs
    exact tokenize_eq_singleton (List.cons_ne_nil c cs) (firstMatch_spelling hP hk hs)
  · have hmatch := firstMatch_eq_none fun r hr => takes_single_ampersand (r := r) hP hr cs hcs
    exact tokenize_eq_error (List.cons_ne_nil _ cs) hmatch

/-- Settles O56: the text is one literal token, whose digits write the number. -/
theorem literalsEvaluateByTheirBase : Obligations.LiteralsEvaluateByTheirBase := by
  intro names P s hP hf
  refine ⟨fun ds hne hlt => ?_, fun ds hne hlt => ?_⟩
  · have hne' : ds.map (fun d => Nat.digitChar d.val) ≠ [] := by simpa using hne
    have hmatch := firstMatch_decimal hP hne' (all_isDigitOf_digitChar (by decide) ds)
    have hnumber := (literalNumber_decimal _).trans (digitsValue_digitChar (by decide) hne)
    exact exprPort_of_token hf (tokenize_eq_singleton hne' hmatch) (evalLiteral_of_number hnumber hlt)
  · have hne' : ds.map (fun d => Nat.digitChar d.val) ≠ [] := by simpa using hne
    have hmatch := firstMatch_hexadecimal hP hne' (all_isDigitOf_digitChar (by decide) ds)
    have hnumber := (literalNumber_hexadecimal _).trans (digitsValue_digitChar (by decide) hne)
    exact exprPort_of_token hf (tokenize_eq_singleton (List.cons_ne_nil _ _) hmatch)
      (evalLiteral_of_number hnumber hlt)

/-- Settles O57: unary operators are tighter than any binary one, and every other operator than logical-or. -/
theorem unaryBindsTightestAndOrLoosest : Obligations.UnaryBindsTightestAndOrLoosest := by
  intro names P s left right o hP hp hne ho hbinary
  obtain ⟨-, -, -, hunary, -, hlor, -⟩ := hP
  refine ⟨fun hleft hright => ?_, fun hk hright => ?_⟩
  · refine evalTokens_split names P s hp hne ho hbinary (fun t ht htop => ?_) (fun t ht htop => ?_)
    · cases hu : t.kind.isUnary with
      | true => exact (hunary _ _ hu ho hbinary).le
      | false => exact hleft t ht htop hu
    · cases hu : t.kind.isUnary with
      | true => exact hunary _ _ hu ho hbinary
      | false => exact hright t ht htop hu
  · rw [evalTokens_split names P s hp hne ho hbinary (fun t _ htop => ?_)
      (fun t ht htop => hk ▸ hlor _ htop (hright t ht)), hk]
    by_cases htk : t.kind = .lor
    · rw [htk, hk]
    · exact (hk ▸ hlor _ htop htk).le

/-- Settles O58: the dereference is looser than the sign behind it, which is looser than the value. -/
theorem starThenSignDereferencesTheSignedValue : Obligations.StarThenSignDereferencesTheSignedValue := by
  intro names P s star sign v x a hP hf hstar hv hsign ha
  obtain ⟨-, -, -, -, ⟨hpos, hneg⟩, -⟩ := hP
  have hvalue := isValue_of_evalToken_eq_ok (evalTokens_singleton names P s v ▸ hv)
  obtain ⟨hparen, hoperator⟩ := not_paren_not_operator_of_isValue hvalue
  obtain ⟨k, f, hk, hkf, hfx, hrank⟩ : ∃ k f, unaryKind sign.kind = some k ∧ unaryOperator s k = some f ∧
      f x = .ok a ∧ P.rank k < P.rank .deref := by
    obtain ⟨h, rfl⟩ | ⟨h, rfl⟩ := hsign
    · exact ⟨.neg, _, h ▸ rfl, rfl, rfl, hneg⟩
    · exact ⟨.pos, _, h ▸ rfl, rfl, rfl, hpos⟩
  have hsigned : evalTokens names P s [{ sign with kind := k }, v] = .ok a := by
    rw [evalTokens_unary_cons names P s (by simp [hparen]) (by simp) hkf (by simp [hoperator]), hv]
    exact hfx
  have hkparen := not_paren_of_isOperator (isOperator_of_unaryOperator hkf)
  rw [reclassifyAll_star_sign hstar hk hvalue, evalTokens_unary_cons names P s (by simp [hparen, hkparen]) (by simp)
    rfl (by simp [hoperator, hrank]), hsigned, ← memRead_word_eq]
  simp [Except.bind, debugRead_of_admits hf ha]

end Sys2Proof.Machine

/-! An empty record input (70_reset_and_hazards.md R203): nothing is offered, so no step is taken (log 2). -/

namespace Sys2Proof.Machine

/-- An empty record input offers nothing, whatever else the state holds. -/
theorem nextOffer_of_no_record {s : State} (hs : s.supply = .records []) : nextOffer s = .nothing := by
  simp [nextOffer, hs]

/-- An unlatched block, no reset asserted, refuses to step where nothing is offered. -/
theorem step_of_nextOffer_nothing {s : State} (hr : s.resetReq = false) (hf : s.fatal = false)
    (h : nextOffer s = .nothing) : step s = .refused .noRecord := by
  simp [step, hr, hf, h]

/-- Settles O12: an empty record input offers nothing, and without an offer the step is refused. -/
theorem noRecordNoStep : Obligations.NoRecordNoStep := by
  intro s hr hf hs
  exact step_of_nextOffer_nothing hr hf (nextOffer_of_no_record hs)

end Sys2Proof.Machine
